-- ==== Sys2Proof/Syntax.lean ====
section
/-! DEFINITION. The ten commands of the block (spec R72, spec/opcode_table.json). A command carries no operand: operands and
results are fixed registers (spec R71, R75). -/

namespace Sys2Proof

/-- One constructor per row of spec/opcode_table.json, in the table's order. -/
inductive Instr where
  | mulmod
  | modexp
  | egcd
  | modinv
  | finv
  | fermat
  | mr
  | primetest
  | rsaenc
  | rsadec
deriving DecidableEq, Repr

end Sys2Proof
end

