-- ==== Sys2Proof/Word.lean ====
section
/-! DEFINITION. The fixed-width values of the block: command and status words, register indices, bytes of byte sequences.
Integer registers hold Lean's `Int` (spec R8, R20: signed integers of any size, no two's complement anywhere). -/

namespace Sys2Proof

/-- A 32-bit word: a command word or STATUS (spec R8: bit 0 is the least significant bit). -/
abbrev Word := BitVec 32

/-- An index of the register index space, 0x00 to 0xFF (spec R51). -/
abbrev Index := BitVec 8

/-- One element of a byte sequence (spec R8, R13). -/
abbrev Byte := BitVec 8

end Sys2Proof
end

