-- ==== Sys2Proof/WellFormed.lean ====
section
/-! DEFINITION. What a well-formed command word and a well-formed command are (spec R70, R71, R73). -/

namespace Sys2Proof

/-- Bits 31:8 are 0 (spec R70, R73). -/
def zeroFieldOk (w : Word) : Bool := w.toNat / 2 ^ 8 == 0

/-- OPC, bits 7:0, is one of 0x01 to 0x0A (spec R72, R73). -/
def opcAssigned (w : Word) : Bool := 1 ≤ w.toNat % 2 ^ 8 && w.toNat % 2 ^ 8 ≤ 10

/-- A legal command word (spec R73: every other word is illegal). -/
def wordWellFormed (w : Word) : Bool := zeroFieldOk w && opcAssigned w

/-- A command has no operand field to check (spec R71), so every command is well formed. -/
def Instr.wellFormed (_ : Instr) : Bool := true

end Sys2Proof
end

