-- ==== Sys2Proof/Decode.lean ====
section
/-! DEFINITION. The decoder of command words, total on all 32-bit words and rejecting by name (spec R70, R72, R73, R78), and after
it the encoder, written from the same table. -/

namespace Sys2Proof

/-- Why a word selects no command (spec R73). Both end in ERR_OPCODE at `Complete` (spec R241); neither stops the model. -/
inductive BadWord where
  /-- A bit of 31:8 is set, whatever OPC is. -/
  | zeroFieldSet
  /-- OPC is 0x00 or 0x0B to 0xFF. -/
  | opcUnassigned
deriving DecidableEq, Repr

/-- Field OPC, bits 7:0 of a command word (spec R70). -/
def opcField (w : Word) : BitVec 8 := w.extractLsb' 0 8

/-- Field ZERO, bits 31:8 of a command word (spec R70). -/
def zeroField (w : Word) : BitVec 24 := w.extractLsb' 8 24

/-- The opcode map (spec R72), read from field OPC. -/
def decodeOpc (opc : BitVec 8) : Except BadWord Instr :=
  match opc.toNat with
  | 0x01 => .ok .mulmod
  | 0x02 => .ok .modexp
  | 0x03 => .ok .egcd
  | 0x04 => .ok .modinv
  | 0x05 => .ok .finv
  | 0x06 => .ok .fermat
  | 0x07 => .ok .mr
  | 0x08 => .ok .primetest
  | 0x09 => .ok .rsaenc
  | 0x0A => .ok .rsadec
  | _ => .error .opcUnassigned

/-- The decoder of `Complete` (spec R78): field ZERO is looked at first, then OPC. -/
def decode (w : Word) : Except BadWord Instr :=
  if zeroField w = 0#24 then decodeOpc (opcField w) else .error .zeroFieldSet

/-- The match word of a command (spec R72). -/
def encode : Instr → Word
  | .mulmod => 0x00000001#32
  | .modexp => 0x00000002#32
  | .egcd => 0x00000003#32
  | .modinv => 0x00000004#32
  | .finv => 0x00000005#32
  | .fermat => 0x00000006#32
  | .mr => 0x00000007#32
  | .primetest => 0x00000008#32
  | .rsaenc => 0x00000009#32
  | .rsadec => 0x0000000A#32

/-- The command word whose low `nbits` bits are those of `w` and whose other bits are 0. A command is one 32-bit word and the
port carries it whole, so no byte order enters (spec R52, R70). -/
def tableWord (nbits w : Nat) : Word := BitVec.ofNat 32 (w % 2 ^ nbits)

/-- What the decoder reads from an instruction whose bits are `w`, numbered as spec/opcode_table.json numbers them. -/
def decodeTableWord (nbits w : Nat) : Option Instr :=
  match decode (tableWord nbits w) with
  | .ok i => some i
  | .error _ => none

end Sys2Proof
end

