-- ==== Sys2Proof/Machine/Arith.lean ====
section
/-! DEFINITION. The exact integer arithmetic of the block: the primitives of spec R10 to R14 and the functions PowMod (R104), Egcd
(R152), Factor2 (R122) and MillerRabin (R124). Each loop carries as fuel the bound its rule gives on its iterations, so that it is
structurally recursive; the fuel is never short (log entry 11). -/

namespace Sys2Proof.Machine

/-- Truncating quotient, rounded toward zero (spec R10). Never applied with `b = 0` by a command. -/
def tdiv (a b : Int) : Int := a.tdiv b

/-- Truncating remainder (spec R10). -/
def trem (a b : Int) : Int := a - b * tdiv a b

/-- Non-negative residue, for `n ≥ 1` (spec R11). -/
def modNN (v n : Int) : Int := v - n * v.fdiv n

/-- Bit length of a natural (spec R12). -/
def bitlen (v : Nat) : Nat := if v = 0 then 0 else v.log2 + 1

/-- The combining operation, for `n ≥ 1` (spec R14). -/
def mulMod (x y n : Int) : Int := modNN (x * y) n

/-- The loop of PowMod (spec R104): running product `r`, running square `s`, exponent left `e`. -/
def powLoop : Nat → Int → Int → Nat → Int → Int
  | 0, r, _, _, _ => r
  | fuel + 1, r, s, e, n =>
    if e = 0 then r
    else
      powLoop fuel (if e % 2 = 1 then mulMod r s n else r) (if 0 < e / 2 then mulMod s s n else s) (e / 2) n

/-- PowMod by right-to-left square and multiply, for `n ≥ 1`; the loop runs `bitlen e` times (spec R104). -/
def powMod (a : Int) (e : Nat) (n : Int) : Int := powLoop (bitlen e) (modNN 1 n) (modNN a n) e n

/-- The loop of PowMod with its combine calls counted: the value, then the calls made for the product and for the square
(spec R104, R106). -/
def powCountLoop : Nat → Int → Int → Nat → Int → Nat → Nat → Int × Nat × Nat
  | 0, r, _, _, _, muls, squares => (r, muls, squares)
  | fuel + 1, r, s, e, n, muls, squares =>
    if e = 0 then (r, muls, squares)
    else
      powCountLoop fuel (if e % 2 = 1 then mulMod r s n else r) (if 0 < e / 2 then mulMod s s n else s) (e / 2) n
        (if e % 2 = 1 then muls + 1 else muls) (if 0 < e / 2 then squares + 1 else squares)

/-- PowMod with its combine calls counted (spec R106, informative: no rule depends on it). -/
def powCount (a : Int) (e : Nat) (n : Int) : Int × Nat × Nat :=
  powCountLoop (bitlen e) (modNN 1 n) (modNN a n) e n 0 0

/-- How many combine calls `powMod a e n` makes, products and squares together (spec R106). -/
def combineCalls (a : Int) (e : Nat) (n : Int) : Nat := (powCount a e n).2.1 + (powCount a e n).2.2

/-- The loop of Egcd (spec R152): running coefficients `x0`, `x1` and remainders `a`, `b`. -/
def egcdLoop : Nat → Int → Int → Int → Int → Int × Int
  | 0, x0, _, a, _ => (x0, a)
  | fuel + 1, x0, x1, a, b =>
    if b = 0 then (x0, a)
    else egcdLoop fuel x1 (x0 - tdiv a b * x1) b (trem a b)

/-- Egcd: the coefficient of `a` and the last non-zero remainder (spec R152); `|b|` falls in every iteration. -/
def egcd (a b : Int) : Int × Int := egcdLoop b.natAbs 1 0 a b

/-- The halving loop of Factor2 (spec R122). -/
def factor2Loop : Nat → Nat → Nat → Nat × Nat
  | 0, q, k => (q, k)
  | fuel + 1, q, k => if q % 2 = 0 then factor2Loop fuel (q / 2) (k + 1) else (q, k)

/-- Factor2, for `m ≥ 1`: the pair `(q, k)` with `m = q * 2^k` and `q` odd (spec R122). -/
def factor2 (m : Nat) : Nat × Nat := factor2Loop (bitlen m) m 0

/-- The squaring chain of MillerRabin, at most `left` squarings from `x` (spec R124). The test for `p - 1` comes first. -/
def mrChain : Nat → Int → Int → Bool
  | 0, _, _ => false
  | left + 1, x, p =>
    if mulMod x x p = p - 1 then true
    else if mulMod x x p = 1 then false
    else mrChain left (mulMod x x p) p

/-- MillerRabin on explicit operands, for `p ≥ 1`, `q ≥ 0`; none of the relations between them is checked (spec R123, R124). The
loop over `i` from 1 while `i < k` makes at most `k - 1` squarings, none when `k ≤ 1`. -/
def millerRabin (p : Int) (q : Nat) (k w : Int) : Bool :=
  if powMod w q p = 1 ∨ powMod w q p = p - 1 then true else mrChain (k - 1).toNat (powMod w q p) p

end Sys2Proof.Machine
end

