-- ==== Sys2Proof/Config.lean ====
section
/-! DEFINITION. What the spec leaves to an implementation or leaves free. Every constant marked `opaque` has no body: no proof can
see its value, so a claim holds whatever it is. -/

namespace Sys2Proof

/-- The two agents that take a step of their own (spec R7); the RNG only answers inside the ENGINE's step (spec R126). -/
inductive Agent where
  | host
  | engine
deriving DecidableEq, Repr, Inhabited

/-- One less than MAXBITS, or `none` for an unbounded register (spec R5, R6, 93 U13: OPEN parameter). MAXBITS is at least 1: a
register of no bits could not hold EGCD's result 1 for the operands 0 and 0, which spec R6 says fits (DEDUCED, log entry 7). -/
opaque Config.maxBitsLess1 : Option Nat

/-- MAXBITS, the largest magnitude bit length an integer register holds (spec R5); `none` means unbounded. -/
def Config.maxBits : Option Nat := Config.maxBitsLess1.map (· + 1)

/-- FREE VALUE: the bits an attached random-bit source gives at its `i`-th draw (spec R126, 92 D20, 93 U8: any value, under no
law; log entry 3). -/
opaque Config.rngBits : Nat → Nat

/-- FREE VALUE: who moves at the `i`-th time that both HOST and ENGINE have a step (spec R59 gives no order; log entry 4). -/
opaque Config.freeTurn : Nat → Agent

/-- FREE VALUE: whether the byte form of the integer 0 is the single byte 0x00 (`true`) or the empty sequence (93 U6; log
entry 14). No command depends on it. -/
opaque Config.zeroHasOneByte : Bool

end Sys2Proof
end

