-- ==== Sys2Proof/Machine/State.lean ====
section
/-! DEFINITION. The state of the block (spec 10_state.md) as plain data, the agents around it (HOST, RNG, the order of moves), the
reasons a step can stop, and the state after reset (spec R32). -/

namespace Sys2Proof.Machine

/-- PHASE (spec R24). -/
inductive Phase where
  | idle
  | busy
  | done
  | fault
deriving DecidableEq, Repr

/-- The content of STATUS.CAUSE (spec R28, R240). The reserved codes 6 to 15 are never produced, so they have no constructor. -/
inductive Cause where
  /-- Code 0: no fault since reset. -/
  | noFault
  /-- Code 1, ERR_OPCODE. -/
  | errOpcode
  /-- Code 2, ERR_MODULUS. -/
  | errModulus
  /-- Code 3, ERR_EXPONENT. -/
  | errExponent
  /-- Code 4, ERR_RANGE. -/
  | errRange
  /-- Code 5, ERR_CANDIDATE. -/
  | errCandidate
deriving DecidableEq, Repr

/-- The seven integer registers (spec R20). -/
inductive Reg where
  | a
  | b
  | n
  | k
  | r0
  | r1
  | r2
deriving DecidableEq, Repr

/-- One line of a host script (spec R76). `cmd X` is `cmdw` with the match word of X. `rng` is no host action: it queues the
value the RNG agent will answer. -/
inductive ScriptLine where
  /-- `HostRead` of an index (spec R55). -/
  | rd (i : Index)
  /-- `HostWrite` of an integer to an index (spec R56). -/
  | wr (i : Index) (v : Int)
  /-- `HostIssue` of a word (spec R58). -/
  | cmdw (w : Word)
  /-- Repeat `HostRead(STATUS)` until BUSY is 0. -/
  | wait
  /-- The next unused answer of the RNG agent. -/
  | rng (v : Nat)
  /-- The reset event (spec R280). -/
  | reset
deriving DecidableEq, Repr

/-- The HOST agent (spec R7): what it will still do, and what its reads returned (newest first). The model's own fields, not
registers of the block (DESIGN CHOICE, log entry 2). -/
structure HostAgent where
  script : List ScriptLine
  readLog : List (Index × Int)
deriving DecidableEq, Repr

/-- The RNG agent (spec R7, R126): the answers queued by `rng` lines, whether a random-bit source is attached (spec R281, R285),
and how many free draws it has given. The model's own fields (DESIGN CHOICE, log entry 3). -/
structure RngAgent where
  scripted : List Nat
  attached : Bool
  taken : Nat
deriving DecidableEq, Repr

/-- Who moves when both HOST and ENGINE have a step: turns already fixed, then free ones. The model's own fields (DESIGN CHOICE,
log entry 4). -/
structure Schedule where
  scripted : List Agent
  taken : Nat
deriving DecidableEq, Repr

/-- The whole machine: the block's architectural state (spec R20 to R29: registers A, B, N, K, R0, R1, R2, PHASE, the flags
VERDICT and NOINV, CAUSE, and the hidden latch CMDW), then the agents outside the block. STATUS is a view (`statusWord`).
`resetPin` is the platform's reset input at the next step (spec R280): no step raises it, so a run meets it at its first step or not
at all (DESIGN CHOICE, log entry 6). -/
structure State where
  a : Int
  b : Int
  n : Int
  k : Int
  r0 : Int
  r1 : Int
  r2 : Int
  phase : Phase
  verdict : Bool
  noinv : Bool
  cause : Cause
  cmdw : Word
  host : HostAgent
  rng : RngAgent
  sched : Schedule
  resetPin : Bool
deriving DecidableEq, Repr

/-- Where the model stops with a fault. The block's own faults (spec R240) are no stop: they are the phase FAULT, a next state. -/
inductive Fault where
  /-- Raised by `hostWrite` at index 0x00 for an integer that is no 32-bit word: the spec gives `HostIssue` 32-bit words only
  (spec R23, R58). Safe: the model stops where the port has no such transfer (DESIGN CHOICE, log entry 8). -/
  | notACommandWord
deriving DecidableEq, Repr

/-- Where the model refuses to go on. -/
inductive Refusal where
  /-- An instruction without a meaning yet, rejected by `exec`'s arm. Safe. -/
  | notModelled (mnemonic : String)
  /-- Raised by `hostWrite` for a value of more than MAXBITS magnitude bits: such a write has no step (spec R6, 93 U13 "over-wide
  writes refuse"). Safe (log entry 7). -/
  | writeTooWide
deriving DecidableEq, Repr

/-- What a step answers. -/
abbrev Result := Host.Outcome State Fault Refusal

/-- The machine right after reset (spec R32). CMDW is unspecified there and is 0 here (DESIGN CHOICE, log entry 1); the agents
outside the block have nothing scripted, a random-bit source is attached, and reset is no longer asserted (DESIGN CHOICE, log
entries 2, 3, 4, 6). -/
def State.reset : State where
  a := 0
  b := 0
  n := 0
  k := 0
  r0 := 0
  r1 := 0
  r2 := 0
  phase := .idle
  verdict := false
  noinv := false
  cause := .noFault
  cmdw := 0#32
  host := { script := [], readLog := [] }
  rng := { scripted := [], attached := true, taken := 0 }
  sched := { scripted := [], taken := 0 }
  resetPin := false

end Sys2Proof.Machine
end

