-- ==== Sys2Proof/Machine/Flags.lean ====
section
/-! DEFINITION. STATUS as the host reads it (spec R25) and the computations of its flags (spec R26, R27, R28). -/

namespace Sys2Proof.Machine

/-- The code of a cause in STATUS.CAUSE (spec R240). -/
def causeCode : Cause → BitVec 4
  | .noFault => 0#4
  | .errOpcode => 1#4
  | .errModulus => 2#4
  | .errExponent => 3#4
  | .errRange => 4#4
  | .errCandidate => 5#4

/-- STATUS bit 0 (spec R25). -/
def busyBit (s : State) : Bool := s.phase == .busy

/-- STATUS bit 1 (spec R25). -/
def doneBit (s : State) : Bool := s.phase == .done

/-- STATUS bit 2 (spec R25). -/
def faultBit (s : State) : Bool := s.phase == .fault

/-- STATUS (spec R25), most significant field first: reserved 31:12, CAUSE 11:8, reserved 7:5, NOINV, VERDICT, FAULT, DONE, BUSY. -/
def statusWord (s : State) : Word :=
  0#20 ++ causeCode s.cause ++ 0#3 ++ BitVec.ofBool s.noinv ++ BitVec.ofBool s.verdict ++ BitVec.ofBool (faultBit s)
    ++ BitVec.ofBool (doneBit s) ++ BitVec.ofBool (busyBit s)

/-- Write STATUS.VERDICT (spec R26). -/
def setVerdict (v : Bool) (s : State) : State := { s with verdict := v }

/-- Write STATUS.NOINV (spec R27). -/
def setNoinv (v : Bool) (s : State) : State := { s with noinv := v }

end Sys2Proof.Machine
end

