-- ==== Sys2Proof/Machine/Operands.lean ====
section
/-! DEFINITION. The integer registers by name and by index (spec R20, R22, R51), and which of them each command reads and writes
(spec R75). A command word selects no register (spec R71): these roles are the only operand form. -/

namespace Sys2Proof.Machine

/-- `X[r]` (spec R9). -/
def State.read (s : State) : Reg → Int
  | .a => s.a
  | .b => s.b
  | .n => s.n
  | .k => s.k
  | .r0 => s.r0
  | .r1 => s.r1
  | .r2 => s.r2

/-- `X[r] <- v` (spec R9). -/
def State.write (s : State) (r : Reg) (v : Int) : State :=
  match r with
  | .a => { s with a := v }
  | .b => { s with b := v }
  | .n => { s with n := v }
  | .k => { s with k := v }
  | .r0 => { s with r0 := v }
  | .r1 => { s with r1 := v }
  | .r2 => { s with r2 := v }

/-- The index of a register (spec R22). -/
def indexOf : Reg → Index
  | .a => 0x02#8
  | .b => 0x03#8
  | .n => 0x04#8
  | .k => 0x05#8
  | .r0 => 0x08#8
  | .r1 => 0x09#8
  | .r2 => 0x0A#8

/-- The index of CMD (spec R23). -/
def indexCmd : Index := 0x00#8

/-- The index of STATUS (spec R25). -/
def indexStatus : Index := 0x01#8

/-- The integer register at an index, if there is one (spec R51). -/
def regAt (i : Index) : Option Reg :=
  match i.toNat with
  | 0x02 => some .a
  | 0x03 => some .b
  | 0x04 => some .n
  | 0x05 => some .k
  | 0x08 => some .r0
  | 0x09 => some .r1
  | 0x0A => some .r2
  | _ => none

/-- The registers a host may write (spec R21, R22). -/
def hostWritable : Reg → Bool
  | .a | .b | .n | .k => true
  | .r0 | .r1 | .r2 => false

/-- The operand registers a command reads (spec R75). -/
def readsRegs : Instr → List Reg
  | .mulmod => [.a, .b, .n]
  | .modexp => [.a, .b, .n]
  | .egcd => [.a, .b]
  | .modinv => [.a, .n]
  | .finv => [.a, .n]
  | .fermat => [.a, .n]
  | .mr => [.a, .b, .n, .k]
  | .primetest => [.n]
  | .rsaenc => [.a, .b, .n]
  | .rsadec => [.a, .b, .n]

/-- The result registers a command writes (spec R75). -/
def writesRegs : Instr → List Reg
  | .mulmod => [.r0]
  | .modexp => [.r0]
  | .egcd => [.r0, .r1]
  | .modinv => [.r0, .r1]
  | .finv => [.r0]
  | .fermat => []
  | .mr => []
  | .primetest => [.r0, .r1, .r2]
  | .rsaenc => [.r0]
  | .rsadec => [.r0]

/-- Whether a command writes VERDICT (spec R26, R75). -/
def writesVerdict : Instr → Bool
  | .fermat | .mr | .primetest => true
  | .mulmod | .modexp | .egcd | .modinv | .finv | .rsaenc | .rsadec => false

/-- Whether a command writes NOINV (spec R27, R75). -/
def writesNoinv : Instr → Bool
  | .modinv => true
  | .mulmod | .modexp | .egcd | .finv | .fermat | .mr | .primetest | .rsaenc | .rsadec => false

end Sys2Proof.Machine
end

