-- ==== Sys2Proof/Machine/Ops.lean ====
section
/-! DEFINITION. The operations the commands share: fault entry (spec R244), the only way out of a fault (spec R248, R280), normal
completion (spec R78), the operand checks in the order of spec R246, and the draw of random bits (spec R126). -/

namespace Sys2Proof.Machine

/-- Fault entry: CAUSE and PHASE change and nothing else (spec R244). That CMDW, too, keeps the word that was in flight is a DESIGN
CHOICE (log entry 1): outside BUSY the spec lets it hold any value (93 U16, spec R29). -/
def raise (c : Cause) (s : State) : Result := .next { s with cause := c, phase := .fault }

/-- The reset event (spec R280): every piece of the block's state takes its value of spec R32, in any phase; a command in flight
is dropped. The agents outside the block keep what is theirs, and the reset input is no longer asserted. It is the only exit
from FAULT (spec R248). -/
def resetEvent (s : State) : State :=
  { State.reset with host := s.host, rng := s.rng, sched := s.sched }

/-- Normal completion of a command (spec R78). That CMDW keeps the word that was in flight is a DESIGN CHOICE (log entry 1): outside
BUSY the spec lets it hold any value (93 U16, spec R29). -/
def finish (s : State) : Result := .next { s with phase := .done }

/-- CheckModulus (spec R101, R242). -/
def checkModulus (s : State) (body : Result) : Result :=
  if s.n < 1 then raise .errModulus s else body

/-- The check of a value about to be used as an exponent (spec R243). -/
def checkExponent (e : Int) (s : State) (body : Result) : Result :=
  if e < 0 then raise .errExponent s else body

/-- The check of an RSA operand against the modulus (spec R180, R245). -/
def checkRange (s : State) (body : Result) : Result :=
  if s.a < 0 ∨ s.n ≤ s.a then raise .errRange s else body

/-- The check of a primality candidate (spec R127, R245). -/
def checkCandidate (s : State) (body : Result) : Result :=
  if s.n < 2 then raise .errCandidate s else body

/-- `RngDraw(bits)` (spec R126): the RNG agent's answer, reduced to `bits` bits, and the agent afterwards; `none` while it gives
no answer (spec R285). A scripted answer comes before the free bits of an attached source (log entry 3). -/
def rngDraw (bits : Nat) (g : RngAgent) : Option (Nat × RngAgent) :=
  match g.scripted with
  | v :: rest => some (v % 2 ^ bits, { g with scripted := rest })
  | [] =>
    if g.attached then some (Config.rngBits g.taken % 2 ^ bits, { g with taken := g.taken + 1 })
    else none

end Sys2Proof.Machine
end

