-- ==== Sys2Proof/Machine/Gcd.lean ====
section
/-! DEFINITION. Sub-block (b), the extended GCD: EGCD, MODINV and FINV (spec 42_egcd_modinv.md). -/

namespace Sys2Proof.Machine

/-- EGCD (spec R150): R0 <- the coefficient of A, R1 <- the last remainder. It has no fault. -/
def execEgcd (s : State) : Result :=
  finish ((s.write .r0 (egcd s.a s.b).1).write .r1 (egcd s.a s.b).2)

/-- What MODINV puts in R0 for the coefficient `x` and the last remainder `g` (spec R154): the sentinel 0, or the inverse. -/
def modinvResult (x g n : Int) : Int :=
  if g ≠ 1 then 0 else if x < 0 then x + n else x

/-- MODINV (spec R154): R0 <- the inverse of A modulo N or the sentinel 0, R1 <- the last remainder, NOINV <- "no inverse". The
test is literally `g ≠ 1` (93 U3). -/
def execModinv (s : State) : Result :=
  checkModulus s
    (finish (setNoinv ((egcd s.a s.n).2 != 1)
      ((s.write .r0 (modinvResult (egcd s.a s.n).1 (egcd s.a s.n).2 s.n)).write .r1 (egcd s.a s.n).2)))

/-- FINV (spec R155): R0 <- A ^ (N - 2) mod N; primality of N is not checked. -/
def execFinv (s : State) : Result :=
  checkModulus s (checkExponent (s.n - 2) s (finish (s.write .r0 (powMod s.a (s.n - 2).toNat s.n))))

end Sys2Proof.Machine
end

