-- ==== Sys2Proof/Machine/ModExp.lean ====
section
/-! DEFINITION. Sub-block (a), the modular exponentiation engine: MULMOD and MODEXP (spec 40_modmul_modexp.md). -/

namespace Sys2Proof.Machine

/-- MULMOD (spec R102): R0 <- A * B mod N. -/
def execMulmod (s : State) : Result :=
  checkModulus s (finish (s.write .r0 (mulMod s.a s.b s.n)))

/-- MODEXP (spec R103): R0 <- A ^ B mod N. -/
def execModexp (s : State) : Result :=
  checkModulus s (checkExponent s.b s (finish (s.write .r0 (powMod s.a s.b.toNat s.n))))

end Sys2Proof.Machine
end

