-- ==== Sys2Proof/Machine/Primality.lean ====
section
/-! DEFINITION. Sub-block (c), primality testing: FERMAT, MR and PRIMETEST (spec 41_primality.md). -/

namespace Sys2Proof.Machine

/-- FERMAT (spec R121): VERDICT <- A ^ (N - 1) mod N = 1. -/
def execFermat (s : State) : Result :=
  checkModulus s (finish (setVerdict (powMod s.a (s.n - 1).toNat s.n == 1) s))

/-- MR (spec R123): VERDICT <- one Miller-Rabin round on p = N, q = B, k = K, w = A. -/
def execMr (s : State) : Result :=
  checkModulus s (checkExponent s.b s (finish (setVerdict (millerRabin s.n s.b.toNat s.k s.a) s)))

/-- What PRIMETEST writes once the witness `w` is drawn (spec R127): R0 <- w, (R1, R2) <- Factor2(N - 1), VERDICT. -/
def primetestWith (w : Nat) (s : State) : State :=
  setVerdict (millerRabin s.n (factor2 (s.n - 1).toNat).1 (factor2 (s.n - 1).toNat).2 w)
    (((s.write .r0 w).write .r1 (factor2 (s.n - 1).toNat).1).write .r2 (factor2 (s.n - 1).toNat).2)

/-- PRIMETEST (spec R127): one witness of `bitlen N` bits, one round. While the RNG does not answer, the command stays BUSY and
nothing changes (spec R126, R285: no completion without a draw). -/
def execPrimetest (s : State) : Result :=
  checkModulus s (checkCandidate s
    (match rngDraw (bitlen s.n.toNat) s.rng with
      | none => .next s
      | some (w, g) => finish (primetestWith w { s with rng := g })))

end Sys2Proof.Machine
end

