-- ==== Sys2Proof/Machine/Rsa.lean ====
section
/-! DEFINITION. Sub-block (d), the RSA single-value transform: RSAENC and RSADEC (spec 43_rsa_transform.md). -/

namespace Sys2Proof.Machine

/-- The transform behind its checks (spec R180): R0 <- A ^ B mod N for `0 ≤ A < N`. -/
def rsaTransform (s : State) : Result :=
  checkModulus s (checkExponent s.b s (checkRange s (finish (s.write .r0 (powMod s.a s.b.toNat s.n)))))

/-- RSAENC (spec R180). -/
def execRsaenc (s : State) : Result := rsaTransform s

/-- RSADEC (spec R181): exactly the function RSAENC computes. -/
def execRsadec (s : State) : Result := rsaTransform s

end Sys2Proof.Machine
end

