-- ==== Sys2Proof/Machine/Dispatch.lean ====
section
/-! DEFINITION. The dispatch of a decoded command to its meaning (spec R78), one arm per command. -/

namespace Sys2Proof.Machine

/-- The body of a command and its end: PHASE is DONE, or FAULT with the cause (spec R78). Only `complete` calls it, with PHASE =
BUSY (log entry 10). -/
def exec (i : Instr) (s : State) : Host.Outcome State Fault Refusal :=
  match i with
  | .mulmod => Sys2Proof.Machine.execMulmod s
  | .modexp => Sys2Proof.Machine.execModexp s
  | .egcd => Sys2Proof.Machine.execEgcd s
  | .modinv => Sys2Proof.Machine.execModinv s
  | .finv => Sys2Proof.Machine.execFinv s
  | .fermat => Sys2Proof.Machine.execFermat s
  | .mr => Sys2Proof.Machine.execMr s
  | .primetest => Sys2Proof.Machine.execPrimetest s
  | .rsaenc => Sys2Proof.Machine.execRsaenc s
  | .rsadec => Sys2Proof.Machine.execRsadec s

end Sys2Proof.Machine
end

