-- ==== Sys2Proof/Machine/HostPort.lean ====
section
/-! DEFINITION. The host port (spec 20_memory.md): HostRead, HostWrite and HostIssue, and one move of the HOST agent along its
script (spec R76). `none` means the access has no step: the host is held (spec R55, R56, R58). -/

namespace Sys2Proof.Machine

/-- The value the table of spec R51 gives at an index. STATUS is read as an unsigned number; CMD and the reserved indices read 0. -/
def portValue (i : Index) (s : State) : Int :=
  if i = indexStatus then (statusWord s).toNat
  else
    match regAt i with
    | some r => s.read r
    | none => 0

/-- `HostRead(i)` (spec R55): STATUS and CMD in every phase, every other index in every phase but BUSY (92 D8). A read changes no
state. -/
def hostRead (i : Index) (s : State) : Option Int :=
  if s.phase = .busy ∧ i ≠ indexStatus ∧ i ≠ indexCmd then none else some (portValue i s)

/-- `HostIssue(w)` (spec R58): the word is latched and not examined; held in BUSY, ignored in FAULT. -/
def hostIssue (w : Word) (s : State) : Option State :=
  match s.phase with
  | .idle | .done => some { s with cmdw := w, phase := .busy }
  | .fault => some s
  | .busy => none

/-- Whether a value fits registers of `m` magnitude bits, `none` meaning unbounded (spec R6, R12). -/
def fitsBits (m : Option Nat) (v : Int) : Bool :=
  match m with
  | none => true
  | some bits => bitlen v.natAbs ≤ bits

/-- The register an integer write changes: A, B, N, K outside FAULT; every other write is ignored (spec R51, R56). -/
def writeTarget (i : Index) (s : State) : Option Reg :=
  match regAt i with
  | some r => if hostWritable r && s.phase != .fault then some r else none
  | none => none

/-- `HostWrite(i, v)` for integer registers of `m` magnitude bits (spec R6, R51, R56, R58): held in BUSY; at index 0x00 it is
`HostIssue` of the word whose value `v` is (log entry 8); elsewhere a value the port cannot carry has no step (log entry 7). -/
def hostWriteFor (m : Option Nat) (i : Index) (v : Int) (s : State) : Option Result :=
  if s.phase = .busy then none
  else if i = indexCmd then
    if 0 ≤ v ∧ v < 2 ^ 32 then (hostIssue (BitVec.ofInt 32 v) s).map .next
    else some (.fault .notACommandWord)
  else if fitsBits m v = false then some (.refused .writeTooWide)
  else
    match writeTarget i s with
    | some r => some (.next (s.write r v))
    | none => some (.next s)

/-- `HostWrite(i, v)` on this machine (spec R56). -/
def hostWrite (i : Index) (v : Int) (s : State) : Option Result := hostWriteFor Config.maxBits i v s

/-- The machine with other script lines left to the host. -/
def withScript (ls : List ScriptLine) (s : State) : State :=
  { s with host := { s.host with script := ls } }

/-- The machine after a host read of index `i` returned `v`. -/
def logRead (i : Index) (v : Int) (s : State) : State :=
  { s with host := { s.host with readLog := (i, v) :: s.host.readLog } }

/-- The machine after an `rng` line (spec R76): one more answer queued behind those already there (log entry 3). -/
def queueAnswer (v : Nat) (s : State) : State :=
  { s with rng := { s.rng with scripted := s.rng.scripted ++ [v] } }

/-- One script line `l`, with `rest` after it (spec R76). A `wait` that reads BUSY = 1 stays; any other line that has a step is
used up. -/
def hostLine (l : ScriptLine) (rest : List ScriptLine) (s : State) : Option Result :=
  match l with
  | .rd i => (hostRead i s).map fun v => .next (logRead i v (withScript rest s))
  | .wr i v => hostWrite i v (withScript rest s)
  | .cmdw w => (hostIssue w (withScript rest s)).map .next
  | .wait =>
    some (.next (logRead indexStatus (portValue indexStatus s)
      (withScript (if s.phase = .busy then .wait :: rest else rest) s)))
  | .rng v => some (.next (queueAnswer v (withScript rest s)))
  | .reset => some (.next (resetEvent (withScript rest s)))

/-- One move of the HOST agent: the next line of its script, if there is one and it is not held. -/
def hostStep (s : State) : Option Result :=
  match s.host.script with
  | [] => none
  | l :: rest => hostLine l rest s

end Sys2Proof.Machine
end

