-- ==== Sys2Proof/Machine/Engine.lean ====
section
/-! DEFINITION. The ENGINE's only step, `Complete` (spec R78), and how one step of the machine is chosen among the agents (spec R7,
R59, R280). -/

namespace Sys2Proof.Machine

/-- `Complete` (spec R78): decode CMDW, run the command, end in DONE or FAULT; an illegal word ends in ERR_OPCODE (spec R241). -/
def complete (s : State) : Result :=
  match decode s.cmdw with
  | .ok i => exec i s
  | .error _ => raise .errOpcode s

/-- One move of the ENGINE: it is enabled iff PHASE = BUSY (spec R78, R252). -/
def engineStep (s : State) : Option Result :=
  if s.phase = .busy then some (complete s) else none

/-- Who moves when both can, and the machine with that turn used up: a turn already fixed, else a free one (log entry 4). -/
def takeTurn (s : State) : Agent × State :=
  match s.sched.scripted with
  | t :: rest => (t, { s with sched := { s.sched with scripted := rest } })
  | [] => (Config.freeTurn s.sched.taken, { s with sched := { s.sched with taken := s.sched.taken + 1 } })

/-- The move of an agent, the machine as it is where the agent has none. -/
def agentMove (t : Agent) (s : State) : Result :=
  match t with
  | .host => (hostStep s).getD (.next s)
  | .engine => (engineStep s).getD (.next s)

/-- One step of the machine. An asserted reset input wins over everything (spec R280). Otherwise the one agent that has a move
makes it; where both have one, `takeTurn` says which; where none has one, nothing changes: the block waits for the host, or a
held host waits for the block (spec R55, R252, R285; log entry 5).
DESIGN CHOICE (log entry 6): when the platform asserts reset during a run is open (spec R280: any phase, any time). `resetPin` is the
reset input at this step only: no definition raises it, so in ANY run of the model it can be asserted at the first step and
never later. A later platform reset is a `reset` line of the host's script, which has the same effect (`resetEvent`). -/
def advance (s : State) : Result :=
  if s.resetPin then .next (resetEvent s)
  else if (hostStep s).isSome && (engineStep s).isSome then agentMove (takeTurn s).1 (takeTurn s).2
  else if (engineStep s).isSome then agentMove .engine s
  else agentMove .host s

/-- The word `w` in flight, and nothing in the way of its completion in the very next step: reset not asserted, and the ENGINE's
turn if the host has a move too (log entry 9). -/
def inFlight (w : Word) (s : State) : State :=
  { s with
    cmdw := w
    phase := .busy
    resetPin := false
    sched := { s.sched with scripted := .engine :: s.sched.scripted } }

end Sys2Proof.Machine
end

