-- ==== Sys2Proof/Machine/Step.lean ====
section
/-! DEFINITION. One step of the machine, and how the host of this pipeline places a command where the next step runs it. -/

namespace Sys2Proof.Machine

/-- One step (spec R7, R78, R280). -/
def step (s : State) : Host.Outcome State Fault Refusal := advance s

/-- The machine with the command word of the table's bits `w` in flight. The block fetches nothing (spec R62): its next command is
the word latched in CMDW (spec R29), so this stands for the `HostIssue` of that word having just been made (log entry 9). -/
def State.withFetchWord (s : State) (nbits w : Nat) : State := inFlight (tableWord nbits w) s

end Sys2Proof.Machine
end

