-- ==== Sys2Proof/Machine/HostScript.lean ====
section
/-! DEFINITION. The host notation of spec R76 and the pseudo-instructions of spec R77 as lists of script lines. -/

namespace Sys2Proof.Machine

/-- `wr <reg>, <integer>` (spec R76). -/
def wrLine (r : Reg) (v : Int) : ScriptLine := .wr (indexOf r) v

/-- `cmd <MNEMONIC>` (spec R76). -/
def cmdLine (i : Instr) : ScriptLine := .cmdw (encode i)

/-- `rd <reg>` for an integer register (spec R76). -/
def rdLine (r : Reg) : ScriptLine := .rd (indexOf r)

/-- `rd STATUS` (spec R76). -/
def rdStatusLine : ScriptLine := .rd indexStatus

/-- `sqrmod` (spec R77): `v(A)` is the value the host last wrote to A. -/
def sqrmodScript (s : State) : List ScriptLine := [wrLine .b s.a, cmdLine .mulmod]

/-- `mulmod x, y, n` (spec R77). -/
def mulmodScript (x y n : Int) : List ScriptLine :=
  [wrLine .a x, wrLine .b y, wrLine .n n, cmdLine .mulmod, .wait, rdLine .r0]

/-- `modexp a, e, n` (spec R77). -/
def modexpScript (a e n : Int) : List ScriptLine :=
  [wrLine .a a, wrLine .b e, wrLine .n n, cmdLine .modexp, .wait, rdLine .r0]

/-- `egcd a, b` (spec R77). -/
def egcdScript (a b : Int) : List ScriptLine :=
  [wrLine .a a, wrLine .b b, cmdLine .egcd, .wait, rdLine .r0, rdLine .r1]

/-- `modinv a, n` (spec R77). -/
def modinvScript (a n : Int) : List ScriptLine :=
  [wrLine .a a, wrLine .n n, cmdLine .modinv, .wait, rdLine .r0, rdStatusLine]

/-- `finv a, p` (spec R77). -/
def finvScript (a p : Int) : List ScriptLine :=
  [wrLine .a a, wrLine .n p, cmdLine .finv, .wait, rdLine .r0]

/-- `fermat p, w` (spec R77). -/
def fermatScript (p w : Int) : List ScriptLine :=
  [wrLine .n p, wrLine .a w, cmdLine .fermat, .wait, rdStatusLine]

/-- `mr p, q, k, w` (spec R77). -/
def mrScript (p q k w : Int) : List ScriptLine :=
  [wrLine .n p, wrLine .b q, wrLine .k k, wrLine .a w, cmdLine .mr, .wait, rdStatusLine]

/-- `primetest p` (spec R77). -/
def primetestScript (p : Int) : List ScriptLine :=
  [wrLine .n p, cmdLine .primetest, .wait, rdStatusLine]

/-- `rsaenc m, e, n` (spec R77). -/
def rsaencScript (m e n : Int) : List ScriptLine :=
  [wrLine .a m, wrLine .b e, wrLine .n n, cmdLine .rsaenc, .wait, rdLine .r0]

/-- `rsadec c, d, n` (spec R77). -/
def rsadecScript (c d n : Int) : List ScriptLine :=
  [wrLine .a c, wrLine .b d, wrLine .n n, cmdLine .rsadec, .wait, rdLine .r0]

end Sys2Proof.Machine
end

