-- ==== Sys2Proof/Machine/Codec.lean ====
section
/-! DEFINITION. Byte sequences (spec R13, R52), UTF-8 text and decimal key records of the host software (spec R204, R205, R207).
No command of the block uses them. -/

namespace Sys2Proof.Machine

/-- The integer a byte sequence stands for, most significant byte first (spec R13). -/
def be2int (bs : List Byte) : Nat := bs.foldl (fun v b => v * 256 + b.toNat) 0

/-- The bytes of `v`, put before `acc`. -/
def int2beLoop : Nat → Nat → List Byte → List Byte
  | 0, _, acc => acc
  | fuel + 1, v, acc => if v = 0 then acc else int2beLoop fuel (v / 256) (BitVec.ofNat 8 (v % 256) :: acc)

/-- The shortest big-endian byte sequence of a positive natural (spec R13); the form of 0 is open (93 U6, log entry 14). -/
def int2be (v : Nat) : List Byte :=
  if v = 0 then (if Config.zeroHasOneByte then [0#8] else [])
  else int2beLoop (bitlen v) v []

/-- `bs` preceded by zero bytes up to length `len` (spec R13). -/
def padLeft (bs : List Byte) (len : Nat) : List Byte := List.replicate (len - bs.length) 0#8 ++ bs

/-- The loop of `chunksOf`. -/
def chunksLoop (size : Nat) : Nat → List Byte → List (List Byte)
  | 0, _ => []
  | fuel + 1, bs => if bs = [] then [] else bs.take size :: chunksLoop size fuel (bs.drop size)

/-- Consecutive chunks of `size` bytes; the last may be shorter; none for an empty sequence (spec R204). -/
def chunksOf (size : Nat) (bs : List Byte) : List (List Byte) := chunksLoop size bs.length bs

/-- The UTF-8 bytes of one character (93 U19; the format itself is PRESUMED, log entry 13). -/
def utf8Char (c : Char) : List Byte :=
  let v := c.toNat
  if v < 0x80 then [BitVec.ofNat 8 v]
  else if v < 0x800 then [BitVec.ofNat 8 (0xC0 + v / 64), BitVec.ofNat 8 (0x80 + v % 64)]
  else if v < 0x10000 then
    [BitVec.ofNat 8 (0xE0 + v / 4096), BitVec.ofNat 8 (0x80 + v / 64 % 64), BitVec.ofNat 8 (0x80 + v % 64)]
  else
    [BitVec.ofNat 8 (0xF0 + v / 262144), BitVec.ofNat 8 (0x80 + v / 4096 % 64), BitVec.ofNat 8 (0x80 + v / 64 % 64),
      BitVec.ofNat 8 (0x80 + v % 64)]

/-- The UTF-8 bytes of a text (spec R204). -/
def utf8Encode (text : List Char) : List Byte := text.flatMap utf8Char

/-- The character with code point `v`, if there is one and its shortest form starts at `least`. -/
def utf8Point (least v : Nat) : Option Char :=
  if least ≤ v ∧ v.isValidChar then some (Char.ofNat v) else none

/-- The six payload bits of a continuation byte. -/
def utf8Tail (b : Byte) : Option Nat :=
  if 0x80 ≤ b.toNat ∧ b.toNat < 0xC0 then some (b.toNat - 0x80) else none

/-- The first character of a byte sequence and the bytes after it; `none` where the bytes are not valid UTF-8. -/
def utf8Head : List Byte → Option (Char × List Byte)
  | [] => none
  | b :: rest =>
    if b.toNat < 0x80 then (utf8Point 0 b.toNat).map fun c => (c, rest)
    else if b.toNat < 0xC0 then none
    else if b.toNat < 0xE0 then
      match rest with
      | b1 :: rest1 => do
        let t1 ← utf8Tail b1
        let c ← utf8Point 0x80 ((b.toNat - 0xC0) * 64 + t1)
        pure (c, rest1)
      | _ => none
    else if b.toNat < 0xF0 then
      match rest with
      | b1 :: b2 :: rest2 => do
        let t1 ← utf8Tail b1
        let t2 ← utf8Tail b2
        let c ← utf8Point 0x800 ((b.toNat - 0xE0) * 4096 + t1 * 64 + t2)
        pure (c, rest2)
      | _ => none
    else if b.toNat < 0xF8 then
      match rest with
      | b1 :: b2 :: b3 :: rest3 => do
        let t1 ← utf8Tail b1
        let t2 ← utf8Tail b2
        let t3 ← utf8Tail b3
        let c ← utf8Point 0x10000 ((b.toNat - 0xF0) * 262144 + t1 * 4096 + t2 * 64 + t3)
        pure (c, rest3)
      | _ => none
    else none

/-- The loop of `utf8Decode`. -/
def utf8Loop : Nat → List Byte → Option (List Char)
  | 0, bs => if bs = [] then some [] else none
  | fuel + 1, bs =>
    if bs = [] then some []
    else do
      let (c, rest) ← utf8Head bs
      let cs ← utf8Loop fuel rest
      pure (c :: cs)

/-- The text a byte sequence is in UTF-8, `none` for "invalid UTF-8 text after decode" (spec R205). -/
def utf8Decode (bs : List Byte) : Option (List Char) := utf8Loop bs.length bs

/-- A persisted key record (spec R207). -/
structure KeyRecord where
  modulus : Nat
  exponent : Nat
deriving DecidableEq, Repr

/-- A natural as a decimal string (spec R207). -/
def decimal (v : Nat) : List Char := Nat.toDigits 10 v

/-- The natural a decimal string stands for; `none` for a string that is none. DESIGN CHOICE (log entry 17): the spec says only
"decimal strings" (spec R207; 91 N30 leaves the format of the file out). Here a decimal string is one or more of the digits 0 to
9: leading zeros are accepted, and the empty string, a sign and any other character are refused. -/
def ofDecimal (cs : List Char) : Option Nat :=
  if cs ≠ [] ∧ cs.all Char.isDigit then some (cs.foldl (fun v c => v * 10 + (c.toNat - 48)) 0) else none

/-- The persisted state: exactly the two key records, public and private (spec R207). -/
structure KeyFiles where
  publicKey : KeyRecord
  privateKey : KeyRecord
deriving DecidableEq, Repr

/-- The two key records of a generated key `(n, e, d)`: `{n, e}` is the public one, `{n, d}` the private one (spec R202, R207). The
three integers of KeyGen are not negative, so each is the natural its decimal string stands for. -/
def keyFilesOf (key : Int × Int × Int) : KeyFiles where
  publicKey := { modulus := key.1.toNat, exponent := key.2.1.toNat }
  privateKey := { modulus := key.1.toNat, exponent := key.2.2.toNat }

/-- A key record as its two decimal strings (spec R207; the file around them is out of scope by spec R4). -/
def storeKey (r : KeyRecord) : List Char × List Char := (decimal r.modulus, decimal r.exponent)

/-- The key record two decimal strings hold. -/
def loadKey (p : List Char × List Char) : Option KeyRecord := do
  let m ← ofDecimal p.1
  let e ← ofDecimal p.2
  pure { modulus := m, exponent := e }

/-- The persisted state as decimal strings, the public record first (spec R207). -/
def storeKeys (f : KeyFiles) : (List Char × List Char) × (List Char × List Char) :=
  (storeKey f.publicKey, storeKey f.privateKey)

/-- The persisted state that two pairs of decimal strings hold. -/
def loadKeys (p : (List Char × List Char) × (List Char × List Char)) : Option KeyFiles := do
  let pub ← loadKey p.1
  let priv ← loadKey p.2
  pure { publicKey := pub, privateKey := priv }

end Sys2Proof.Machine
end

