-- ==== Sys2Proof/Machine/HostSequences.lean ====
section
/-! DEFINITION. The procedures a host runs with the block's commands (spec 48_host_sequences.md, R200 to R206): random prime,
key generation, coprime search, message codec. They stand outside the block (spec R3) and reach it only through its port
operations and `complete`. Draws of the host's own source are arguments (spec R200). -/

namespace Sys2Proof.Machine

/-- Why a host sequence ends without its value. -/
inductive Abort where
  /-- A command faulted, or the block was in FAULT already: "fatal abort" (spec R200, R286). -/
  | blockFault (c : Cause)
  /-- The port does not carry the operand `v`: it has more than MAXBITS magnitude bits (spec R6, log entry 7). -/
  | operandTooWide (v : Int)
  /-- "non-positive sign after big-integer conversion" (spec R204, R205). -/
  | nonPositive
  /-- "invalid UTF-8 text after decode" (spec R205). -/
  | invalidUtf8
  /-- A ciphertext integer of more than 16 bytes: refused (93 U5). -/
  | cipherTooWide
  /-- A ciphertext whose length is no multiple of 16: refused (93 U5). -/
  | raggedCiphertext
deriving DecidableEq, Repr

/-- How a host sequence stands: its value and the block after it, an abort, or not ended yet (the RNG does not answer, or the
given number of retries is used up; log entry 15). -/
inductive SeqResult (α : Type) where
  | value (v : α) (s : State)
  | abort (why : Abort) (s : State)
  | pending (s : State)
deriving DecidableEq, Repr

/-- Go on from the value of a sequence. -/
def SeqResult.andThen {α β : Type} (r : SeqResult α) (f : α → State → SeqResult β) : SeqResult β :=
  match r with
  | .value v s => f v s
  | .abort why s => .abort why s
  | .pending s => .pending s

/-- The end of the command in flight, with nothing done where the block is not BUSY: an access the port holds takes effect
after it (spec R55, R56, R58, R284). `none` while the RNG gives no answer: then the access is held (spec R285). -/
def awaitPort (s : State) : Option State :=
  if s.phase = .busy then
    match complete s with
    | .next t => if t.phase = .busy then none else some t
    | .fault _ => none
    | .refused _ => none
  else some s

/-- Operand writes in order (spec R77). A write the port refuses ends the sequence (spec R6); a held one leaves it waiting, which
`blockCall` never meets, since it waits for the port first. No register has the index of CMD, so no write here is a command word. -/
def writeAll : List (Reg × Int) → State → SeqResult Unit
  | [], s => .value () s
  | (r, v) :: ws, s =>
    match hostWrite (indexOf r) v s with
    | some (.next t) => writeAll ws t
    | some (.refused _) => .abort (.operandTooWide v) s
    | some (.fault _) => .pending s
    | none => .pending s

/-- What the host sees of a block that is in a command or past it: a STATUS of FAULT ends the sequence (spec R200, R286). -/
def outcome (s : State) : SeqResult Unit :=
  match s.phase with
  | .fault => .abort (.blockFault s.cause) s
  | .busy => .pending s
  | .idle | .done => .value () s

/-- Wait for the command in flight, if there is one, and look at STATUS; unfinished while the RNG gives no answer (spec R284,
R285). -/
def awaitCompletion (s : State) : SeqResult Unit :=
  match awaitPort s with
  | some t => outcome t
  | none => .pending s

/-- One pseudo-instruction (spec R77): write the operands, issue the command, wait for it.
DESIGN CHOICE (log entry 15): spec/48_host_sequences.md gives no case for a sequence entered while the block is BUSY. The model follows
spec R56 and R284: the first access is held until the command in flight has completed and then takes effect; where the RNG never
answers that command the sequence stays unfinished; and where that command ends in FAULT, or the block was in FAULT already, the
sequence ends as the "fatal abort" of spec R200, since every later access is ignored (spec R286). -/
def blockCall (i : Instr) (ws : List (Reg × Int)) (s : State) : SeqResult Unit :=
  (awaitCompletion s).andThen fun _ t =>
  (writeAll ws t).andThen fun _ u =>
    match hostIssue (encode i) u with
    | some v => awaitCompletion v
    | none => .pending u

/-- The loop of RandomPrime (spec R201): at most `retries` candidates from `c` up; the spec's own loop has no bound. -/
def randomPrimeLoop : Nat → Int → State → SeqResult Int
  | 0, _, s => .pending s
  | retries + 1, c, s =>
    (blockCall .primetest [(.n, c)] s).andThen fun _ t =>
      if t.verdict then .value c t else randomPrimeLoop retries (c + 1) t

/-- RandomPrime(b) for `b ≥ 2`, with `draw` the answer of HostRng (spec R201): candidates from `2^(b-1) + draw` up. -/
def randomPrime (retries b draw : Nat) (s : State) : SeqResult Int :=
  randomPrimeLoop retries (2 ^ (b - 1) + draw % 2 ^ (b - 1) : Nat) s

/-- The loop of CoprimeSearch (spec R203). -/
def coprimeLoop : Nat → Int → Int → State → SeqResult Int
  | 0, _, _, s => .pending s
  | left + 1, phi, e, s =>
    (blockCall .egcd [(.a, e), (.b, phi)] s).andThen fun _ t =>
      if t.r1 = 1 then .value e t else coprimeLoop left phi (e + 1) t

/-- CoprimeSearch(phi) for `phi ≥ 1`, from a draw in `[0, phi)` (spec R203); it ends within phi steps (spec R287). -/
def coprimeSearch (phi : Int) (draw : Nat) (s : State) : SeqResult Int :=
  coprimeLoop phi.toNat phi (draw % phi.toNat : Nat) s

/-- KeyGen(b) (spec R202): `(n, e, d)`, with the host's draws for p, for q and for e. -/
def keyGen (retries b drawP drawQ drawE : Nat) (s : State) : SeqResult (Int × Int × Int) :=
  (randomPrime retries b drawP s).andThen fun p s1 =>
  (randomPrime retries b drawQ s1).andThen fun q s2 =>
  (coprimeSearch ((p - 1) * (q - 1)) drawE s2).andThen fun e s3 =>
  (blockCall .modinv [(.a, e), (.n, (p - 1) * (q - 1))] s3).andThen fun _ s4 =>
    .value (p * q, e, s4.r0) s4

/-- KeyGen and the two key records the host's key store keeps of it (spec R202, R207). -/
def keyGenFiles (retries b drawP drawQ drawE : Nat) (s : State) : SeqResult KeyFiles :=
  (keyGen retries b drawP drawQ drawE s).andThen fun key t => .value (keyFilesOf key) t

/-- One ciphertext block (spec R204): the result of RSAENC as exactly 16 bytes. -/
def cipherBlock (s : State) : SeqResult (List Byte) :=
  if s.r0 ≤ 0 then .abort .nonPositive s
  else if 16 < (int2be s.r0.toNat).length then .abort .cipherTooWide s
  else .value (padLeft (int2be s.r0.toNat) 16) s

/-- The chunk loop of EncodeMessage (spec R204). -/
def encodeChunks : List (List Byte) → Int → Int → State → SeqResult (List Byte)
  | [], _, _, s => .value [] s
  | ch :: rest, e, n, s =>
    (blockCall .rsaenc [(.a, be2int ch), (.b, e), (.n, n)] s).andThen fun _ t =>
    (cipherBlock t).andThen fun block u =>
    (encodeChunks rest e n u).andThen fun out v => .value (block ++ out) v

/-- EncodeMessage(text, e, n) (spec R204). -/
def encodeMessage (text : List Char) (e n : Int) (s : State) : SeqResult (List Byte) :=
  encodeChunks (chunksOf 8 (utf8Encode text)) e n s

/-- The text of one plaintext chunk (spec R205): the result of RSADEC as shortest bytes, read as UTF-8 on its own. -/
def plainChunk (s : State) : SeqResult (List Char) :=
  if s.r0 ≤ 0 then .abort .nonPositive s
  else
    match utf8Decode (int2be s.r0.toNat) with
    | some t => .value t s
    | none => .abort .invalidUtf8 s

/-- The chunk loop of DecodeMessage (spec R205). -/
def decodeChunks : List (List Byte) → Int → Int → State → SeqResult (List Char)
  | [], _, _, s => .value [] s
  | cb :: rest, d, n, s =>
    (blockCall .rsadec [(.a, be2int cb), (.b, d), (.n, n)] s).andThen fun _ t =>
    (plainChunk t).andThen fun text u =>
    (decodeChunks rest d n u).andThen fun out v => .value (text ++ out) v

/-- DecodeMessage(bs, d, n) (spec R205). -/
def decodeMessage (bs : List Byte) (d n : Int) (s : State) : SeqResult (List Char) :=
  if bs.length % 16 ≠ 0 then .abort .raggedCiphertext s else decodeChunks (chunksOf 16 bs) d n s

end Sys2Proof.Machine
end

