-- ==== Sys2Proof/Machine/Limbs.lean ====
section
/-! DEFINITION. The limb-by-limb multiplication with propagated carry that spec R107 gives as a refinement target (informative,
93 G1: no command uses it). A magnitude is a list of limbs below `beta`, least significant first. -/

namespace Sys2Proof.Machine

/-- The magnitude a list of limbs stands for (spec R107). -/
def limbValue (beta : Nat) : List Nat → Nat
  | [] => 0
  | x :: xs => x + beta * limbValue beta xs

/-- The inner loop for one limb `x` of the first factor (spec R107): the limbs of the second factor against the accumulator from
place `i` on, with the running carry, which ends in place `i + n`. -/
def limbRow (beta x : Nat) : List Nat → List Nat → Nat → List Nat
  | [], _, _ => []
  | _ :: acc, [], carry => carry :: acc
  | t :: acc, y :: ys, carry =>
    (t + x * y + carry) % beta :: limbRow beta x acc ys ((t + x * y + carry) / beta)

/-- The outer loop (spec R107): place `i` of the accumulator is final once the row of limb `i` is done. -/
def limbRows (beta : Nat) : List Nat → List Nat → List Nat → List Nat
  | [], acc, _ => acc
  | x :: xs, acc, ys =>
    match limbRow beta x acc ys 0 with
    | [] => []
    | t :: rest => t :: limbRows beta xs rest ys

/-- The product of two magnitudes of m and n limbs, in m + n limbs (spec R107). -/
def limbMul (beta : Nat) (xs ys : List Nat) : List Nat :=
  limbRows beta xs (List.replicate (xs.length + ys.length) 0) ys

end Sys2Proof.Machine
end

