-- ==== Sys2Proof/Safety.lean ====
section
/-! DEFINITION. The terms claims are stated in: what a safe run keeps, which phase changes the spec allows, which check of a command
fails first, and what a Miller-Rabin verdict says, each without the model's own loops. -/

namespace Sys2Proof.Machine

/-- A safe run never reaches the phase FAULT (spec R248: it is for the rest of the run). -/
abbrev State.Safe (s : State) : Prop := s.phase ≠ .fault

/-- CAUSE is 0 exactly while the phase is not FAULT (spec R28, R244). -/
abbrev State.CauseAgrees (s : State) : Prop := s.cause = .noFault ↔ s.phase ≠ .fault

/-- Every integer register fits MAXBITS magnitude bits (spec R6, R20). -/
abbrev State.RegistersFit (s : State) : Prop := ∀ r : Reg, fitsBits Config.maxBits (s.read r) = true

/-- The reset event is next: the reset input is asserted, or the host's next line is `reset` (spec R280). -/
abbrev State.ResetNext (s : State) : Prop := s.resetPin = true ∨ s.host.script.head? = some .reset

/-- The changes of phase of spec R24 that are no reset. -/
def phaseChange : Phase → Phase → Prop
  | .idle, .busy => True
  | .done, .busy => True
  | .busy, .done => True
  | .busy, .fault => True
  | _, _ => False

/-- The first check of a command that fails, in the order of spec R246; `noFault` if all pass. -/
def firstFault (i : Instr) (s : State) : Cause :=
  match i with
  | .egcd => .noFault
  | .mulmod | .modinv | .fermat => if s.n < 1 then .errModulus else .noFault
  | .modexp | .mr =>
    if s.n < 1 then .errModulus else if s.b < 0 then .errExponent else .noFault
  | .finv => if s.n < 1 then .errModulus else if s.n = 1 then .errExponent else .noFault
  | .primetest => if s.n < 1 then .errModulus else if s.n = 1 then .errCandidate else .noFault
  | .rsaenc | .rsadec =>
    if s.n < 1 then .errModulus
    else if s.b < 0 then .errExponent
    else if s.a < 0 ∨ s.a ≥ s.n then .errRange
    else .noFault

/-- "Declare probably-prime" (spec R124) with powers instead of a squaring chain: `w^q` is 1 or -1 modulo `p`, or one of at most
`k - 1` further squarings is the first to reach -1 and none before it reached 1. -/
def MrPasses (p : Int) (q : Nat) (k w : Int) : Prop :=
  w ^ q % p = 1 ∨ w ^ q % p = p - 1 ∨
    ∃ i : Nat, 1 ≤ i ∧ (i : Int) < k ∧ w ^ (q * 2 ^ i) % p = p - 1 ∧
      ∀ j : Nat, 1 ≤ j → j < i → w ^ (q * 2 ^ j) % p ≠ 1

end Sys2Proof.Machine
end

