-- ==== Sys2Proof/Certificates/Slice0/Obligations.lean ====
section
/-! DEFINITION. The statements for the provers, each from the numbered rules of spec/. Where a statement gives `{ s with … }` as the
next state, every field not named there is unchanged: that is its frame. `%` on `Int` with a positive modulus is the
non-negative residue (spec R11). Where the next state is in DONE or FAULT, that CMDW is among the unchanged fields is the model's
choice and no rule of the spec, which lets it hold any value there (93 U16; log entry 1). -/

open Sys2Proof Sys2Proof.Machine

/-! ## Encoding (spec 30_encoding.md) -/

/-- Spec R72: a word selects a command iff bits 31:8 are 0 and bits 7:0 are its opcode; its match word is the one it encodes to. -/
def Obligations.WordSelectsCommandByOpcode : Prop :=
  ∀ i : Instr,
    (∀ w : Word, decode w = .ok i ↔ w.toNat / 256 = 0 ∧ w.toNat % 256 =
      (match i with
        | .mulmod => 0x01 | .modexp => 0x02 | .egcd => 0x03 | .modinv => 0x04 | .finv => 0x05
        | .fermat => 0x06 | .mr => 0x07 | .primetest => 0x08 | .rsaenc => 0x09 | .rsadec => 0x0A)) ∧
    ∀ w : Word, decode w = .ok i ↔ w = encode i

/-- Spec R73, R241: the words that select nothing are those with a bit of 31:8 set, OPC 0x00, and OPC 0x0B to 0xFF. -/
def Obligations.IllegalWordsAreRejected : Prop :=
  ∀ w : Word, (∃ e, decode w = .error e) ↔
    (256 ≤ w.toNat ∨ w.toNat % 256 = 0 ∨ 0x0B ≤ w.toNat % 256)

/-- Spec R72, R73: words written out from the table, and illegal ones of the spec's fault table. -/
def Obligations.SampleWordsDecode : Prop :=
  decode 0b00000000000000000000000000000001#32 = .ok .mulmod ∧
  decode 0b00000000000000000000000000000010#32 = .ok .modexp ∧
  decode 0b00000000000000000000000000000011#32 = .ok .egcd ∧
  decode 0b00000000000000000000000000000110#32 = .ok .fermat ∧
  decode 0b00000000000000000000000000001000#32 = .ok .primetest ∧
  decode 0b00000000000000000000000000001010#32 = .ok .rsadec ∧
  decode 0x00000000#32 = .error .opcUnassigned ∧
  decode 0x0000000B#32 = .error .opcUnassigned ∧
  decode 0x00000102#32 = .error .zeroFieldSet ∧
  decode 0xFFFFFFFF#32 = .error .zeroFieldSet

/-! ## Steps (spec R7, R24, R78, R280) -/

/-- Spec R78: in BUSY the step is the meaning of the command that CMDW holds; where the host has a move too, when the turn is the
ENGINE's, and that turn is used up. -/
def Obligations.StepRunsDecodedCommand : Prop :=
  ∀ (s : State) (i : Instr), s.resetPin = false → s.phase = .busy → decode s.cmdw = .ok i →
    (hostStep s = none → step s = exec i s) ∧
    (hostStep s ≠ none → (takeTurn s).1 = .engine → step s = exec i (takeTurn s).2)

/-- Spec R55 to R58, R252: outside BUSY the step is the host's move, and nothing changes where it has none. -/
def Obligations.StepPerformsHostMove : Prop :=
  ∀ s : State, s.resetPin = false →
    (s.phase ≠ .busy → ∀ o, hostStep s = some o → step s = o) ∧
    (s.phase ≠ .busy → hostStep s = none → step s = .next s) ∧
    (s.phase = .busy → (takeTurn s).1 = .host → ∀ o, hostStep (takeTurn s).2 = some o → step s = o)

/-- Spec R241, R244, R73: an illegal word in CMDW ends in ERR_OPCODE at the ENGINE's step, and nothing else changes; where the host
has a move too (a poll of STATUS), when the turn is the ENGINE's, and that turn is used up. Turns are the model's own (log
entry 4). -/
def Obligations.IllegalWordFaultsAtCompletion : Prop :=
  ∀ s : State, s.resetPin = false → s.phase = .busy →
    (256 ≤ s.cmdw.toNat ∨ s.cmdw.toNat % 256 = 0 ∨ 0x0B ≤ s.cmdw.toNat % 256) →
    (hostStep s = none → step s = .next { s with cause := .errOpcode, phase := .fault }) ∧
    (hostStep s ≠ none → (takeTurn s).1 = .engine →
      step s = .next { (takeTurn s).2 with cause := .errOpcode, phase := .fault })

/-- Spec R24: the phase changes only as listed there, and to IDLE only by reset. -/
def Obligations.PhaseTransitionsAreListed : Prop :=
  ∀ s t : State, step s = .next t →
    t.phase = s.phase ∨ phaseChange s.phase t.phase ∨ (t.phase = .idle ∧ s.ResetNext)

/-- Spec R248, R286: in FAULT, without a reset, a step changes no register, no flag, neither CAUSE nor PHASE. That CMDW
keeps its value there is the model's choice (93 U16; log entry 1). -/
def Obligations.FaultStaysUntilReset : Prop :=
  ∀ s t : State, s.phase = .fault → ¬ s.ResetNext → step s = .next t →
    t.phase = .fault ∧ t.cause = s.cause ∧ (∀ r : Reg, t.read r = s.read r) ∧
    t.verdict = s.verdict ∧ t.noinv = s.noinv ∧ t.cmdw = s.cmdw

/-- Spec R280, R32: an asserted reset input wins over any other event in any phase; every register, flag and CAUSE is 0, PHASE is
IDLE, STATUS and every index read 0; so it is for the reset line of a script. The agents outside the block keep what is
theirs (the model's own fields, log entries 2, 3, 4, 6). -/
def Obligations.ResetClearsTheBlock : Prop :=
  ∀ s : State,
    (s.resetPin = true → ∃ t, step s = .next t ∧
      t.phase = .idle ∧ (∀ r : Reg, t.read r = 0) ∧ t.verdict = false ∧ t.noinv = false ∧ t.cause = .noFault ∧
      (∀ i : Index, hostRead i t = some 0) ∧
      t.host = s.host ∧ t.rng = s.rng ∧ t.sched = s.sched ∧ t.resetPin = false) ∧
    (∀ rest, s.host.script = .reset :: rest → ∃ t, hostStep s = some (.next t) ∧
      t.phase = .idle ∧ (∀ r : Reg, t.read r = 0) ∧ t.verdict = false ∧ t.noinv = false ∧ t.cause = .noFault ∧
      (∀ i : Index, hostRead i t = some 0) ∧ t.host.script = rest ∧ t.host.readLog = s.host.readLog)

/-- Spec R6, R23, R58: the model stops only at a host write of a value that no port transfer carries. -/
def Obligations.StepStopsOnlyAtThePort : Prop :=
  ∀ s : State,
    match step s with
    | .next _ => True
    | .fault .notACommandWord =>
      ∃ v rest, s.host.script = .wr indexCmd v :: rest ∧ s.phase ≠ .busy ∧ ¬ (0 ≤ v ∧ v < 2 ^ 32)
    | .refused f =>
      f = .writeTooWide ∧ ∃ i v rest, s.host.script = .wr i v :: rest ∧ s.phase ≠ .busy ∧ i ≠ indexCmd ∧
        fitsBits Config.maxBits v = false

/-! ## STATUS and the invariants of a run -/

/-- Spec R25: every bit of STATUS, and at most one of BUSY, DONE and FAULT is set. -/
def Obligations.StatusWordFields : Prop :=
  ∀ s : State,
    (statusWord s).getLsbD 0 = decide (s.phase = .busy) ∧
    (statusWord s).getLsbD 1 = decide (s.phase = .done) ∧
    (statusWord s).getLsbD 2 = decide (s.phase = .fault) ∧
    (statusWord s).getLsbD 3 = s.verdict ∧
    (statusWord s).getLsbD 4 = s.noinv ∧
    (∀ j, 5 ≤ j → j ≤ 7 → (statusWord s).getLsbD j = false) ∧
    ((statusWord s).toNat / 256 % 16 =
      match s.cause with
        | .noFault => 0 | .errOpcode => 1 | .errModulus => 2 | .errExponent => 3 | .errRange => 4 | .errCandidate => 5) ∧
    (∀ j, 12 ≤ j → (statusWord s).getLsbD j = false) ∧
    ((statusWord s).toNat % 8 = 0 ↔ s.phase = .idle) ∧
    ((statusWord s).toNat % 8 = 0 ∨ (statusWord s).toNat % 8 = 1 ∨ (statusWord s).toNat % 8 = 2 ∨
      (statusWord s).toNat % 8 = 4)

/-- Spec R28, R24, R244: every step keeps "CAUSE is 0 exactly while PHASE is not FAULT". -/
def Obligations.CauseAgreesWithPhaseInvariant : Prop :=
  ∀ s t : State, s.CauseAgrees → step s = .next t → t.CauseAgrees

/-- Spec R32, R28: that invariant holds after reset. -/
def Obligations.CauseAgreesAtReset : Prop := State.reset.CauseAgrees

/-- Spec R6: every step keeps "every integer register fits MAXBITS": a command never overflows a register. MAXBITS is at least 1
(log entry 7). -/
def Obligations.RegistersFitInvariant : Prop :=
  ∀ s t : State, s.RegistersFit → step s = .next t → t.RegistersFit

/-- Spec R6, R32: that invariant holds after reset. -/
def Obligations.RegistersFitAtReset : Prop := State.reset.RegistersFit

/-! ## Commands: results, completion and frame -/

/-- Spec R102: MULMOD. -/
def Obligations.MulmodComputesTheResidue : Prop :=
  encode .mulmod = 0x00000001#32 ∧ ∀ s : State,
    (s.n < 1 → exec .mulmod s = .next { s with cause := .errModulus, phase := .fault }) ∧
    (1 ≤ s.n → exec .mulmod s = .next { s with r0 := s.a * s.b % s.n, phase := .done })

/-- Spec R103, R104: MODEXP. -/
def Obligations.ModexpComputesThePower : Prop :=
  encode .modexp = 0x00000002#32 ∧ ∀ s : State,
    (s.n < 1 → exec .modexp s = .next { s with cause := .errModulus, phase := .fault }) ∧
    (1 ≤ s.n → s.b < 0 → exec .modexp s = .next { s with cause := .errExponent, phase := .fault }) ∧
    (1 ≤ s.n → 0 ≤ s.b → exec .modexp s = .next { s with r0 := s.a ^ s.b.toNat % s.n, phase := .done })

/-- Spec R150: EGCD has no fault, R0 is the coefficient and R1 the last remainder of Egcd (spec R152), with the corner cases. -/
def Obligations.EgcdWritesCoefficientAndRemainder : Prop :=
  encode .egcd = 0x00000003#32 ∧ ∀ s : State,
    exec .egcd s = .next { s with r0 := (egcd s.a s.b).1, r1 := (egcd s.a s.b).2, phase := .done } ∧
    (s.b = 0 → exec .egcd s = .next { s with r0 := 1, r1 := s.a, phase := .done }) ∧
    (s.a = 0 → s.b ≠ 0 → exec .egcd s = .next { s with r0 := 0, r1 := s.b, phase := .done }) ∧
    (s.b ≠ 0 → ∃ y, y = ((egcd s.a s.b).2 - (egcd s.a s.b).1 * s.a) / s.b ∧
      (egcd s.a s.b).1 * s.a + y * s.b = (egcd s.a s.b).2)

/-- Spec R154: MODINV. -/
def Obligations.ModinvWritesInverseOrSentinel : Prop :=
  encode .modinv = 0x00000004#32 ∧ ∀ s : State,
    (s.n < 1 → exec .modinv s = .next { s with cause := .errModulus, phase := .fault }) ∧
    (1 ≤ s.n → (egcd s.a s.n).2 ≠ 1 →
      exec .modinv s = .next { s with r0 := 0, r1 := (egcd s.a s.n).2, noinv := true, phase := .done }) ∧
    (1 ≤ s.n → (egcd s.a s.n).2 = 1 → (egcd s.a s.n).1 < 0 →
      exec .modinv s = .next { s with r0 := (egcd s.a s.n).1 + s.n, r1 := 1, noinv := false, phase := .done }) ∧
    (1 ≤ s.n → (egcd s.a s.n).2 = 1 → 0 ≤ (egcd s.a s.n).1 →
      exec .modinv s = .next { s with r0 := (egcd s.a s.n).1, r1 := 1, noinv := false, phase := .done })

/-- Spec R154 (corner cases), R153: what MODINV's answer means. For a ≥ 0, NOINV = 0 exactly when A and N are coprime; whenever
NOINV = 0, R0 is the inverse in `[0, N)`, for negative A too (observed by the spec's script, not stated by its document). -/
def Obligations.ModinvAnswerIsTheInverse : Prop :=
  ∀ s : State, 1 ≤ s.n → ∃ t, exec .modinv s = .next t ∧ t.phase = .done ∧
    (0 ≤ s.a → (t.noinv = false ↔ Int.gcd s.a s.n = 1) ∧ t.r1 = (Int.gcd s.a s.n : Int)) ∧
    (t.noinv = false → 0 ≤ t.r0 ∧ t.r0 < s.n ∧ s.n ∣ t.r0 * s.a - 1) ∧
    (t.noinv = true → t.r0 = 0)

/-- Spec R155: FINV. -/
def Obligations.FinvComputesThePower : Prop :=
  encode .finv = 0x00000005#32 ∧ ∀ s : State,
    (s.n < 1 → exec .finv s = .next { s with cause := .errModulus, phase := .fault }) ∧
    (s.n = 1 → exec .finv s = .next { s with cause := .errExponent, phase := .fault }) ∧
    (2 ≤ s.n → exec .finv s = .next { s with r0 := s.a ^ (s.n - 2).toNat % s.n, phase := .done })

/-- Spec R155 (corner cases): for a prime N that does not divide A, FINV gives the inverse. -/
def Obligations.FinvInvertsModuloAPrime : Prop :=
  ∀ (s : State) (p : Nat), p.Prime → s.n = p → ¬ s.n ∣ s.a →
    ∃ t, exec .finv s = .next t ∧ t.phase = .done ∧ t.r0 * s.a % s.n = 1

/-- Spec R121: FERMAT. -/
def Obligations.FermatDecidesByThePower : Prop :=
  encode .fermat = 0x00000006#32 ∧ ∀ s : State,
    (s.n < 1 → exec .fermat s = .next { s with cause := .errModulus, phase := .fault }) ∧
    (1 ≤ s.n →
      exec .fermat s = .next { s with verdict := decide (s.a ^ (s.n - 1).toNat % s.n = 1), phase := .done })

/-- Spec R121 (corner cases): a prime passes for every witness it does not divide, and no candidate from 2 up passes for a witness
it divides. -/
def Obligations.FermatOfPrimesAndMultiples : Prop :=
  ∀ s : State,
    (∀ p : Nat, p.Prime → s.n = p → ¬ s.n ∣ s.a →
      exec .fermat s = .next { s with verdict := true, phase := .done }) ∧
    (2 ≤ s.n → s.n ∣ s.a → exec .fermat s = .next { s with verdict := false, phase := .done })

/-- Spec R123, R124: MR. -/
def Obligations.MrDecidesBySquaringChain : Prop :=
  encode .mr = 0x00000007#32 ∧ ∀ s : State,
    (s.n < 1 → exec .mr s = .next { s with cause := .errModulus, phase := .fault }) ∧
    (1 ≤ s.n → s.b < 0 → exec .mr s = .next { s with cause := .errExponent, phase := .fault }) ∧
    (1 ≤ s.n → 0 ≤ s.b → ∃ v : Bool, exec .mr s = .next { s with verdict := v, phase := .done } ∧
      (v = true ↔ MrPasses s.n s.b.toNat s.k s.a))

/-- Spec R125 (a), (b): witnesses that are 0, 1 or -1 modulo the candidate decide without regard to primality. -/
def Obligations.MrDegenerateWitnesses : Prop :=
  ∀ (p : Int) (q : Nat) (k w : Int), 2 ≤ p →
    (1 ≤ q → w % p = 0 → millerRabin p q k w = false) ∧
    (w % p = 1 → millerRabin p q k w = true) ∧
    (w % p = p - 1 → q % 2 = 1 → millerRabin p q k w = true)

/-- Spec R125 (93 G3): an odd prime whose predecessor is `q * 2^k` passes for every witness it does not divide. -/
def Obligations.MrAcceptsPrimes : Prop :=
  ∀ (s : State) (p : Nat), p.Prime → p ≠ 2 → s.n = p → 0 ≤ s.b → 0 ≤ s.k → s.n - 1 = s.b * 2 ^ s.k.toNat → s.b % 2 = 1 →
    ¬ s.n ∣ s.a → exec .mr s = .next { s with verdict := true, phase := .done }

/-- Spec R127, R122, R124: PRIMETEST once the RNG answers. -/
def Obligations.PrimetestRunsOneRound : Prop :=
  encode .primetest = 0x00000008#32 ∧ ∀ s : State,
    (s.n < 1 → exec .primetest s = .next { s with cause := .errModulus, phase := .fault }) ∧
    (s.n = 1 → exec .primetest s = .next { s with cause := .errCandidate, phase := .fault }) ∧
    (∀ w g, 2 ≤ s.n → rngDraw (bitlen s.n.toNat) s.rng = some (w, g) → ∃ (q k : Nat) (v : Bool),
      exec .primetest s =
        .next { s with rng := g, r0 := w, r1 := q, r2 := k, verdict := v, phase := .done } ∧
      s.n - 1 = q * 2 ^ k ∧ q % 2 = 1 ∧ w < 2 ^ bitlen s.n.toNat ∧ (v = true ↔ MrPasses s.n q k w))

/-- Spec R285, R126: while the RNG gives no answer, PRIMETEST stays BUSY and changes nothing, and so does the step while the host has
no move. -/
def Obligations.PrimetestWaitsForTheDraw : Prop :=
  ∀ s : State, 2 ≤ s.n → s.rng.scripted = [] → s.rng.attached = false →
    exec .primetest s = .next s ∧
    (s.resetPin = false → s.phase = .busy → s.cmdw = encode .primetest → hostStep s = none → step s = .next s)

/-- Spec R126: the RNG answers exactly when it has an answer scripted or a source attached, always with a value below `2^bits`, and
every such value is a possible answer. How answers are queued is the model's own (log entry 3). -/
def Obligations.RngAnswersLieInRange : Prop :=
  ∀ (bits : Nat) (g : RngAgent),
    ((rngDraw bits g).isSome = true ↔ g.scripted ≠ [] ∨ g.attached = true) ∧
    (∀ w h, rngDraw bits g = some (w, h) → w < 2 ^ bits) ∧
    (∀ w, w < 2 ^ bits → ∃ h, rngDraw bits { g with scripted := w :: g.scripted } = some (w, h) ∧ h = g)

/-- Spec R180, R181: RSAENC and RSADEC. -/
def Obligations.RsaTransformsComputeThePower : Prop :=
  encode .rsaenc = 0x00000009#32 ∧ encode .rsadec = 0x0000000A#32 ∧
    ∀ (s : State) (i : Instr), i = .rsaenc ∨ i = .rsadec →
      (s.n < 1 → exec i s = .next { s with cause := .errModulus, phase := .fault }) ∧
      (1 ≤ s.n → s.b < 0 → exec i s = .next { s with cause := .errExponent, phase := .fault }) ∧
      (1 ≤ s.n → 0 ≤ s.b → s.a < 0 ∨ s.n ≤ s.a →
        exec i s = .next { s with cause := .errRange, phase := .fault }) ∧
      (1 ≤ s.n → 0 ≤ s.b → 0 ≤ s.a → s.a < s.n →
        exec i s = .next { s with r0 := s.a ^ s.b.toNat % s.n, phase := .done })

/-- Spec R182: the round trip, for two distinct primes and exponents inverse modulo `(p-1)(q-1)`; and the spec's case p = q = 61 in
which it fails. -/
def Obligations.RsaRoundTrip : Prop :=
  (∀ (s : State) (p q d : Nat), p.Prime → q.Prime → p ≠ q → s.n = p * q → 0 ≤ s.a → s.a < s.n → 0 ≤ s.b →
    ((p - 1 : Int) * (q - 1)) ∣ s.b * d - 1 →
    ∃ t u, exec .rsaenc s = .next t ∧ t.phase = .done ∧
      exec .rsadec { t with a := t.r0, b := d } = .next u ∧ u.phase = .done ∧ u.r0 = s.a) ∧
  ∀ s : State, s.a = 61 → s.b = 7 → s.n = 3721 →
    ∃ t u, exec .rsaenc s = .next t ∧ exec .rsadec { t with a := t.r0, b := 1543 } = .next u ∧ u.phase = .done ∧ u.r0 = 0

/-! ## Faults -/

/-- Spec R242, R101: a modulus below 1 faults in every modular command. -/
def Obligations.ModulusBelowOneFaults : Prop :=
  ∀ (i : Instr) (s : State), i ≠ .egcd → s.n < 1 →
    exec i s = .next { s with cause := .errModulus, phase := .fault }

/-- Spec R243: a negative exponent faults. -/
def Obligations.NegativeExponentFaults : Prop :=
  ∀ (i : Instr) (s : State), 1 ≤ s.n →
    (i = .modexp ∨ i = .mr ∨ i = .rsaenc ∨ i = .rsadec) ∧ s.b < 0 ∨ i = .finv ∧ s.n - 2 < 0 →
    exec i s = .next { s with cause := .errExponent, phase := .fault }

/-- Spec R245: an RSA operand out of range, and a candidate below 2, fault. -/
def Obligations.RangeAndCandidateFaults : Prop :=
  ∀ (i : Instr) (s : State), 1 ≤ s.n →
    ((i = .rsaenc ∨ i = .rsadec) → 0 ≤ s.b → (s.a ≥ s.n ∨ s.a < 0) →
      exec i s = .next { s with cause := .errRange, phase := .fault }) ∧
    (i = .primetest → s.n = 1 → exec i s = .next { s with cause := .errCandidate, phase := .fault })

/-- Spec R246, R244: the first failed check, in the fixed order, is the fault, which changes CAUSE and PHASE alone; where no check
fails the command raises none, and it ends in DONE unless it is a PRIMETEST that waits for its draw. -/
def Obligations.FirstFailedCheckIsTheFault : Prop :=
  ∀ (i : Instr) (s : State),
    (firstFault i s ≠ .noFault → exec i s = .next { s with cause := firstFault i s, phase := .fault }) ∧
    (firstFault i s = .noFault → ∃ t, exec i s = .next t ∧ t.cause = s.cause ∧
      (t.phase = .done ∨ (i = .primetest ∧ rngDraw (bitlen s.n.toNat) s.rng = none ∧ t = s)))

/-! ## Frames and dependence over all commands -/

/-- Spec R21: no command writes an operand register; nor does it touch the host, the order of moves or the reset input; only
PRIMETEST takes from the RNG. That CMDW keeps the command's word after it has ended is the model's choice (93 U16; log entry 1). -/
def Obligations.NoCommandWritesOperands : Prop :=
  ∀ (i : Instr) (s t : State), exec i s = .next t →
    t.a = s.a ∧ t.b = s.b ∧ t.n = s.n ∧ t.k = s.k ∧ t.cmdw = s.cmdw ∧ t.host = s.host ∧ t.sched = s.sched ∧
    t.resetPin = s.resetPin ∧ (i ≠ .primetest → t.rng = s.rng)

/-- Spec R22, R26, R27, R75: a register or flag a command does not name keeps its value, and a fault writes none. -/
def Obligations.UnnamedResultsKeepTheirValue : Prop :=
  ∀ (i : Instr) (s t : State), exec i s = .next t →
    (∀ r : Reg, r ∉ writesRegs i ∨ firstFault i s ≠ .noFault → t.read r = s.read r) ∧
    (writesVerdict i = false ∨ firstFault i s ≠ .noFault → t.verdict = s.verdict) ∧
    (writesNoinv i = false ∨ firstFault i s ≠ .noFault → t.noinv = s.noinv)

/-- Spec R183, R105 (f), R75: what a command answers depends on the operand registers it names (and PRIMETEST's draw) alone. -/
def Obligations.ResultsDependOnNamedOperands : Prop :=
  ∀ (i : Instr) (s t s' t' : State), s.phase = .busy → t.phase = .busy →
    (∀ r ∈ readsRegs i, s.read r = t.read r) → (i = .primetest → s.rng = t.rng) →
    exec i s = .next s' → exec i t = .next t' →
    s'.phase = t'.phase ∧ (s'.phase = .fault → s'.cause = t'.cause) ∧
    (s'.phase = .done →
      (∀ r ∈ writesRegs i, s'.read r = t'.read r) ∧
      (writesVerdict i = true → s'.verdict = t'.verdict) ∧ (writesNoinv i = true → s'.noinv = t'.noinv))

/-! ## Host port (spec 20_memory.md) -/

/-- Spec R55, R51, R54: what a read returns at each index, when it is held, and that a read that has a step changes nothing but what
the host has read (log entry 2). -/
def Obligations.HostReadReturnsTheTable : Prop :=
  ∀ (s : State) (i : Index) (rest : List ScriptLine), s.host.script = .rd i :: rest →
    (s.phase = .busy → i ≠ 0x00#8 → i ≠ 0x01#8 → hostStep s = none) ∧
    (s.phase ≠ .busy ∨ i = 0x00#8 ∨ i = 0x01#8 →
      hostStep s = some (.next { s with host :=
        { script := rest
          readLog :=
            (i, if i = 0x01#8 then ((statusWord s).toNat : Int)
              else if i = 0x02#8 then s.a
              else if i = 0x03#8 then s.b
              else if i = 0x04#8 then s.n
              else if i = 0x05#8 then s.k
              else if i = 0x08#8 then s.r0
              else if i = 0x09#8 then s.r1
              else if i = 0x0A#8 then s.r2
              else 0) :: s.host.readLog } }))

/-- Spec R56, R51: a host write of a value the port carries, at an index other than CMD: held in BUSY; in IDLE and DONE it sets A, B,
N or K and nothing else; every other write, and every write in FAULT, is ignored. -/
def Obligations.HostWriteSetsOperandsOnly : Prop :=
  ∀ (s : State) (i : Index) (v : Int) (rest : List ScriptLine), s.host.script = .wr i v :: rest → i ≠ 0x00#8 →
    (s.phase = .busy → hostStep s = none) ∧
    (fitsBits Config.maxBits v = true → s.phase = .idle ∨ s.phase = .done →
      hostStep s = some (.next
        { s with
          a := if i = 0x02#8 then v else s.a
          b := if i = 0x03#8 then v else s.b
          n := if i = 0x04#8 then v else s.n
          k := if i = 0x05#8 then v else s.k
          host := { s.host with script := rest } })) ∧
    (fitsBits Config.maxBits v = true → s.phase = .fault →
      hostStep s = some (.next { s with host := { s.host with script := rest } }))

/-- Spec R6, 93 U13: a write of a value of more than MAXBITS magnitude bits has no step; the model refuses it. -/
def Obligations.OverwideWriteIsRefused : Prop :=
  ∀ (s : State) (m : Nat) (i : Index) (v : Int), s.phase ≠ .busy → i ≠ 0x00#8 →
    (2 ^ m ≤ v.natAbs → hostWriteFor (some m) i v s = some (.refused .writeTooWide)) ∧
    (v.natAbs < 2 ^ m → ∃ t, hostWriteFor (some m) i v s = some (.next t)) ∧
    ∃ t, hostWriteFor none i v s = some (.next t)

/-- Spec R58, R23: HostIssue latches the word unexamined and enters BUSY from IDLE and DONE; held in BUSY; ignored in FAULT; a write
of the word's value to index 0x00 is the same action. -/
def Obligations.HostIssueLatchesTheWord : Prop :=
  ∀ (s : State) (w : Word) (l : ScriptLine) (rest : List ScriptLine),
    l = .cmdw w ∨ l = .wr 0x00#8 (w.toNat : Int) → s.host.script = l :: rest →
    (s.phase = .idle ∨ s.phase = .done →
      hostStep s = some (.next { s with cmdw := w, phase := .busy, host := { s.host with script := rest } })) ∧
    (s.phase = .busy → hostStep s = none) ∧
    (s.phase = .fault → hostStep s = some (.next { s with host := { s.host with script := rest } }))

/-- Spec R76: `wait` reads STATUS until BUSY is 0: the line stays while the phase is BUSY and is used up otherwise. -/
def Obligations.WaitPollsStatus : Prop :=
  ∀ (s : State) (rest : List ScriptLine), s.host.script = .wait :: rest →
    ∃ t, hostStep s = some (.next t) ∧
      t.host.readLog = (0x01#8, ((statusWord s).toNat : Int)) :: s.host.readLog ∧
      (s.phase = .busy → t.host.script = .wait :: rest) ∧ (s.phase ≠ .busy → t.host.script = rest) ∧
      { t with host := s.host } = s

/-! ## Arithmetic -/

/-- Spec R10: truncating quotient and remainder. -/
def Obligations.TruncatingDivision : Prop :=
  ∀ a b : Int, b ≠ 0 →
    tdiv a b = a.sign * b.sign * ((a.natAbs / b.natAbs : Nat) : Int) ∧
    trem a b = a - b * tdiv a b ∧
    (trem a b).natAbs < b.natAbs ∧
    (trem a b = 0 ∨ (trem a b).sign = a.sign)

/-- Spec R11: `mod_nn` is the unique residue in `[0, n)`, also by way of `trem`. -/
def Obligations.NonNegativeResidue : Prop :=
  ∀ v n : Int, 1 ≤ n →
    modNN v n = v - n * v.fdiv n ∧ 0 ≤ modNN v n ∧ modNN v n < n ∧ n ∣ v - modNN v n ∧
    (∀ r, 0 ≤ r → r < n → n ∣ v - r → r = modNN v n) ∧
    modNN v n = if 0 ≤ trem v n then trem v n else trem v n + n

/-- Spec R14: MulMod is associative and commutative, and `mod_nn(1, n)` is its identity on `[0, n)`. -/
def Obligations.MulModIsACommutativeMonoid : Prop :=
  ∀ x y z n : Int, 1 ≤ n →
    mulMod x y n = modNN (x * y) n ∧
    mulMod (mulMod x y n) z n = mulMod x (mulMod y z n) n ∧
    mulMod x y n = mulMod y x n ∧
    (0 ≤ x → x < n → mulMod (modNN 1 n) x n = x)

/-- Spec R104: square and multiply gives `mod_nn(a^e, n)`, and at least `bitlen e` passes of the loop are enough. A number of passes as
fuel is the model's own (log entry 11). -/
def Obligations.PowModIsThePower : Prop :=
  ∀ (a : Int) (e : Nat) (n : Int), 1 ≤ n →
    powMod a e n = modNN (a ^ e) n ∧
    ∀ fuel, bitlen e ≤ fuel → powLoop fuel (modNN 1 n) (modNN a n) e n = modNN (a ^ e) n

/-- Spec R105 (a) to (e). -/
def Obligations.PowModLaws : Prop :=
  ∀ (a : Int) (e f : Nat) (n : Int), 1 ≤ n →
    0 ≤ powMod a e n ∧ powMod a e n < n ∧
    powMod a 0 n = modNN 1 n ∧
    powMod a 1 n = modNN a n ∧
    powMod a (e + f) n = mulMod (powMod a e n) (powMod a f n) n ∧
    powMod a e n = powMod (modNN a n) e n

/-- Spec R106: the number of combine calls, counted in a loop that computes what `powLoop` computes from every start: one call a set bit
of the exponent for the product, one a bit but the last for the square. -/
def Obligations.CombineCallCount : Prop :=
  (∀ (fuel : Nat) (r s : Int) (e : Nat) (n : Int) (muls squares : Nat),
    (powCountLoop fuel r s e n muls squares).1 = powLoop fuel r s e n) ∧
  ∀ (a : Int) (e : Nat) (n : Int),
    (powCount a e n).1 = powMod a e n ∧
    combineCalls a 0 n = 0 ∧
    (0 < e →
      (powCount a e n).2.1 = (Nat.digits 2 e).sum ∧ (powCount a e n).2.2 + 1 = bitlen e ∧
      combineCalls a e n + 1 = (Nat.digits 2 e).sum + bitlen e ∧ combineCalls a e n + 1 ≤ 2 * bitlen e)

/-- Spec R122: Factor2, and that it is the only such pair. -/
def Obligations.Factor2SplitsOffTwos : Prop :=
  ∀ m : Nat, 1 ≤ m →
    m = (factor2 m).1 * 2 ^ (factor2 m).2 ∧ (factor2 m).1 % 2 = 1 ∧
    ∀ q k, m = q * 2 ^ k → q % 2 = 1 → factor2 m = (q, k)

/-- Spec R152: one iteration of Egcd, and that the fuel `|b|` is never short. -/
def Obligations.EgcdRecurrence : Prop :=
  ∀ (fuel : Nat) (x0 x1 a b : Int), b.natAbs ≤ fuel →
    (b = 0 → egcdLoop fuel x0 x1 a b = (x0, a)) ∧
    (b ≠ 0 → egcdLoop fuel x0 x1 a b =
      egcdLoop (trem a b).natAbs x1 (x0 - tdiv a b * x1) b (trem a b))

/-- Spec R153 (a) to (e), with its examples of negative operands. -/
def Obligations.EgcdLaws : Prop :=
  (∀ a b : Int,
    (∃ y, (egcd a b).1 * a + y * b = (egcd a b).2) ∧
    (0 ≤ a → 0 ≤ b → (egcd a b).2 = (Int.gcd a b : Int)) ∧
    (egcd a b).2.natAbs = Int.gcd a b ∧
    (egcd a b).1.natAbs ≤ max 1 b.natAbs ∧
    (egcd a b).2.natAbs ≤ max a.natAbs b.natAbs ∧
    (0 ≤ a → 1 ≤ b → (egcd a b).2 = 1 → -b < (egcd a b).1 ∧ (egcd a b).1 < b)) ∧
  egcd (-240) 46 = (9, 2) ∧ egcd 240 (-46) = (9, -2) ∧ egcd (-240) (-46) = (-9, -2) ∧
  egcd (-1) 5 = (1, -1) ∧ egcd 3 (-10) = (3, -1) ∧ egcd 0 (-5) = (0, -5)

/-- Spec R107 (93 G1, informative): limb multiplication with carries gives the product, in limbs below `beta`. -/
def Obligations.LimbMultiplicationIsTheProduct : Prop :=
  ∀ (bits : Nat) (xs ys : List Nat), (∀ x ∈ xs, x < 2 ^ bits) → (∀ y ∈ ys, y < 2 ^ bits) →
    limbValue (2 ^ bits) (limbMul (2 ^ bits) xs ys) = limbValue (2 ^ bits) xs * limbValue (2 ^ bits) ys ∧
    (limbMul (2 ^ bits) xs ys).length = xs.length + ys.length ∧
    ∀ t ∈ limbMul (2 ^ bits) xs ys, t < 2 ^ bits

/-! ## Host software (spec R13, 48_host_sequences.md) -/

/-- Spec R13: `int2be` is the shortest byte sequence of a positive natural; padding keeps the value and gives the length. -/
def Obligations.BytesOfIntegers : Prop :=
  ∀ v : Nat, 0 < v →
    be2int (int2be v) = v ∧
    (∀ bs : List Byte, be2int bs = v → (int2be v).length ≤ bs.length) ∧
    ∀ len, (int2be v).length ≤ len →
      be2int (padLeft (int2be v) len) = v ∧ (padLeft (int2be v) len).length = len

/-- Spec R203, R287: where the port carries phi, a block in IDLE or DONE gives CoprimeSearch's value within phi steps: an exponent in
`[0, phi)` coprime to phi. In every phase a value is such an exponent; an abort names an operand the port does not carry, or a
fault that stood before the search or ended the command it waited for. Begun in BUSY (log entry 15) the search goes on when
that command has completed (spec R284), and is unfinished only while the RNG does not answer it (spec R285). -/
def Obligations.CoprimeSearchFindsACoprime : Prop :=
  ∀ (phi : Int) (draw : Nat) (s : State), 1 ≤ phi →
    (fitsBits Config.maxBits phi = true → s.phase = .idle ∨ s.phase = .done →
      ∃ e t, coprimeSearch phi draw s = .value e t) ∧
    (∀ t, s.phase = .busy → complete s = .next t → t.phase ≠ .busy → coprimeSearch phi draw s = coprimeSearch phi draw t) ∧
    match coprimeSearch phi draw s with
    | .value e t => 0 ≤ e ∧ e < phi ∧ Int.gcd e phi = 1 ∧ t.phase = .done ∧ t.r1 = 1
    | .abort why t =>
      (t.phase ≠ .fault ∧ ∃ v, why = .operandTooWide v ∧ fitsBits Config.maxBits v = false ∧ 0 ≤ v ∧ v ≤ phi) ∨
      (why = .blockFault t.cause ∧ t.phase = .fault ∧ (s.phase = .fault ∨ s.phase = .busy))
    | .pending t =>
      t = s ∧ s.phase = .busy ∧ decode s.cmdw = .ok .primetest ∧ rngDraw (bitlen s.n.toNat) s.rng = none

/-- Spec R201: from IDLE or DONE a prime search never faults the block, and the value it returns is one the procedure accepted on that
call; it aborts only at a candidate the port does not carry. It is unfinished (log entry 15) only while the RNG does not answer
a PRIMETEST, or when the given number of retries is used up, the last candidate having been rejected. -/
def Obligations.RandomPrimeReturnsAnAcceptedCandidate : Prop :=
  ∀ (retries b draw : Nat) (s : State) (first : Int), 2 ≤ b → s.phase = .idle ∨ s.phase = .done →
    first = 2 ^ (b - 1) + (draw % 2 ^ (b - 1) : Nat) →
    match randomPrime retries b draw s with
    | .value p t =>
      first ≤ p ∧ p < first + retries ∧ 2 ^ (b - 1) ≤ p ∧ t.n = p ∧ t.verdict = true ∧ t.phase = .done
    | .abort why t =>
      t.phase ≠ .fault ∧ ∃ v, why = .operandTooWide v ∧ fitsBits Config.maxBits v = false ∧ first ≤ v ∧ v < first + retries
    | .pending t =>
      (t.phase = .busy ∧ t.cmdw = encode .primetest ∧ first ≤ t.n ∧ t.n < first + retries ∧
        rngDraw (bitlen t.n.toNat) t.rng = none) ∨
      (retries = 0 ∧ t = s) ∨
      (0 < retries ∧ t.phase = .done ∧ t.verdict = false ∧ t.n = first + retries - 1)

/-- Spec R202, R207: what KeyGen returns is the product of the two candidates that RandomPrime answered, one after the other, and a pair
of exponents inverse modulo `(p-1)*(q-1)`; MODINV's sentinel path is not reached; the two key records hold `{n, e}` and `{n, d}`
and their decimal strings give them back. From IDLE or DONE no command faults, it aborts only at an operand the port does
not carry, and is unfinished only where one of the two prime searches is (log entry 15). -/
def Obligations.KeyGenReturnsInverseExponents : Prop :=
  ∀ (retries b drawP drawQ drawE : Nat) (s : State), 2 ≤ b → s.phase = .idle ∨ s.phase = .done →
    match keyGen retries b drawP drawQ drawE s with
    | .value (n, e, d) t =>
      t.noinv = false ∧
      (∃ (p q : Int) (s1 s2 : State),
        randomPrime retries b drawP s = .value p s1 ∧ randomPrime retries b drawQ s1 = .value q s2 ∧
        2 ^ (b - 1) ≤ p ∧ 2 ^ (b - 1) ≤ q ∧ n = p * q ∧ 0 ≤ e ∧ e < (p - 1) * (q - 1) ∧
        Int.gcd e ((p - 1) * (q - 1)) = 1 ∧ 0 ≤ d ∧ d < (p - 1) * (q - 1) ∧ (p - 1) * (q - 1) ∣ d * e - 1) ∧
      ∃ f, keyGenFiles retries b drawP drawQ drawE s = .value f t ∧ loadKeys (storeKeys f) = some f ∧
        (f.publicKey.modulus : Int) = n ∧ (f.publicKey.exponent : Int) = e ∧
        (f.privateKey.modulus : Int) = n ∧ (f.privateKey.exponent : Int) = d
    | .abort why t => t.phase ≠ .fault ∧ ∃ v, why = .operandTooWide v ∧ fitsBits Config.maxBits v = false
    | .pending t =>
      randomPrime retries b drawP s = .pending t ∨
      ∃ p s1, randomPrime retries b drawP s = .value p s1 ∧ randomPrime retries b drawQ s1 = .pending t

/-- Spec R204: one ciphertext block is exactly 16 bytes and stands for R0, and an encoded message is 16 bytes for each chunk of up
to 8 bytes of text. Begun with a command in flight (log entry 15) it is unfinished only while the RNG does not answer that. -/
def Obligations.CiphertextIsSixteenBytesAChunk : Prop :=
  (∀ s : State, 0 < s.r0 → s.r0 < 2 ^ 128 →
    ∃ out, cipherBlock s = .value out s ∧ out.length = 16 ∧ (be2int out : Int) = s.r0) ∧
  ∀ (text : List Char) (e n : Int) (s : State),
    match encodeMessage text e n s with
    | .value out _ => out.length = 16 * (((utf8Encode text).length + 7) / 8)
    | .abort _ _ => True
    | .pending t => t = s ∧ s.phase = .busy ∧ rngDraw (bitlen s.n.toNat) s.rng = none

/-- Spec R204, R205 (93 U19): the text codec of the host gives back every text it encoded. -/
def Obligations.TextBytesRoundTrip : Prop :=
  ∀ text : List Char, utf8Decode (utf8Encode text) = some text
end

