-- ==== Sys2Proof/Laws/Arith.lean ====
section
/-! SUPPORT. The primitives of spec R10 to R14 in the library's terms. -/

namespace Sys2Proof.Machine

theorem tdiv_eq (a b : Int) : tdiv a b = a.tdiv b := rfl

theorem trem_eq_tmod (a b : Int) : trem a b = a.tmod b := by
  have h := Int.mul_tdiv_add_tmod a b
  simp only [trem, tdiv]
  omega

theorem trem_natAbs_lt (a b : Int) (h : b ≠ 0) : (trem a b).natAbs < b.natAbs := by
  rw [trem_eq_tmod, Int.natAbs_tmod]
  exact Nat.mod_lt _ (by omega)

theorem modNN_eq_emod (v n : Int) (h : 1 ≤ n) : modNN v n = v % n := by
  have := Int.mul_fdiv_add_fmod v n
  have hf : v.fmod n = v % n := Int.fmod_eq_emod_of_nonneg v (by omega)
  simp only [modNN]
  omega

theorem mulMod_eq_emod (x y n : Int) (h : 1 ≤ n) : mulMod x y n = x * y % n :=
  modNN_eq_emod _ n h

theorem modNN_nonneg (v n : Int) (h : 1 ≤ n) : 0 ≤ modNN v n := by
  rw [modNN_eq_emod v n h]; exact Int.emod_nonneg v (by omega)

theorem modNN_lt (v n : Int) (h : 1 ≤ n) : modNN v n < n := by
  rw [modNN_eq_emod v n h]; exact Int.emod_lt_of_pos v (by omega)

theorem lt_two_pow_bitlen (v : Nat) : v < 2 ^ bitlen v := by
  unfold bitlen
  split
  · simp_all
  · exact Nat.lt_log2_self

theorem bitlen_le_iff (v m : Nat) : bitlen v ≤ m ↔ v < 2 ^ m := by
  unfold bitlen
  split
  · simp_all
  · rename_i h
    exact Nat.log2_lt h

theorem bitlen_half (v : Nat) (h : v ≠ 0) : bitlen v = bitlen (v / 2) + 1 := by
  apply Nat.le_antisymm
  · rw [bitlen_le_iff, pow_succ]
    have := lt_two_pow_bitlen (v / 2)
    omega
  · have hb : bitlen v ≠ 0 := by simp [bitlen, h]
    obtain ⟨m, hm⟩ := Nat.exists_eq_succ_of_ne_zero hb
    have := lt_two_pow_bitlen v
    rw [hm, Nat.succ_eq_add_one, pow_succ] at this
    have : bitlen (v / 2) ≤ m := by rw [bitlen_le_iff]; omega
    omega

end Sys2Proof.Machine
end

