-- ==== Sys2Proof/Laws/Codec.lean ====
section
/-! SUPPORT. The decimal strings of key records read back exactly (spec R207). -/

namespace Sys2Proof.Machine

/-- A natural's decimal string stands for it. -/
theorem ofDecimal_decimal (v : Nat) : ofDecimal (decimal v) = some v := by
  have hne : decimal v ≠ [] := Nat.toDigits_ne_nil
  have hd : (decimal v).all Char.isDigit = true :=
    List.all_eq_true.mpr fun c hc => Nat.isDigit_of_mem_toDigits (by decide) (by decide) hc
  have hv : (decimal v).foldl (fun v c => v * 10 + (c.toNat - 48)) 0 = v := by
    have := Nat.ofDigitChars_toDigits (b := 10) (n := v) (by decide) (by decide)
    simp only [Nat.ofDigitChars, Nat.mul_comm 10] at this
    exact this
  rw [ofDecimal, if_pos ⟨hne, hd⟩, hv]

/-- A stored key record reads back exactly. -/
theorem loadKey_storeKey (r : KeyRecord) : loadKey (storeKey r) = some r := by
  simp [loadKey, storeKey, ofDecimal_decimal]

/-- The two stored key records read back exactly. -/
theorem loadKeys_storeKeys (f : KeyFiles) : loadKeys (storeKeys f) = some f := by
  simp [loadKeys, storeKeys, loadKey_storeKey]

end Sys2Proof.Machine
end

