-- ==== Sys2Proof/Laws/State.lean ====
section
/-! SUPPORT. One lemma per field per update of the state, so that no proof unfolds a record update. -/

namespace Sys2Proof.Machine

variable (s : State) (r r' : Reg) (v : Int) (b : Bool)

@[simp] theorem read_write_same : (s.write r v).read r = v := by cases r <;> rfl
theorem read_write_other (h : r' ≠ r) : (s.write r v).read r' = s.read r' := by
  cases r <;> cases r' <;> first | rfl | exact absurd rfl h
@[simp] theorem write_a : s.write .a v = { s with a := v } := rfl
@[simp] theorem write_b : s.write .b v = { s with b := v } := rfl
@[simp] theorem write_n : s.write .n v = { s with n := v } := rfl
@[simp] theorem write_k : s.write .k v = { s with k := v } := rfl
@[simp] theorem write_r0 : s.write .r0 v = { s with r0 := v } := rfl
@[simp] theorem write_r1 : s.write .r1 v = { s with r1 := v } := rfl
@[simp] theorem write_r2 : s.write .r2 v = { s with r2 := v } := rfl
@[simp] theorem write_phase : (s.write r v).phase = s.phase := by cases r <;> rfl
@[simp] theorem write_verdict : (s.write r v).verdict = s.verdict := by cases r <;> rfl
@[simp] theorem write_noinv : (s.write r v).noinv = s.noinv := by cases r <;> rfl
@[simp] theorem write_cause : (s.write r v).cause = s.cause := by cases r <;> rfl
@[simp] theorem write_cmdw : (s.write r v).cmdw = s.cmdw := by cases r <;> rfl
@[simp] theorem write_host : (s.write r v).host = s.host := by cases r <;> rfl
@[simp] theorem write_rng : (s.write r v).rng = s.rng := by cases r <;> rfl
@[simp] theorem write_sched : (s.write r v).sched = s.sched := by cases r <;> rfl
@[simp] theorem write_resetPin : (s.write r v).resetPin = s.resetPin := by cases r <;> rfl

@[simp] theorem read_a : s.read .a = s.a := rfl
@[simp] theorem read_b : s.read .b = s.b := rfl
@[simp] theorem read_n : s.read .n = s.n := rfl
@[simp] theorem read_k : s.read .k = s.k := rfl
@[simp] theorem read_r0 : s.read .r0 = s.r0 := rfl
@[simp] theorem read_r1 : s.read .r1 = s.r1 := rfl
@[simp] theorem read_r2 : s.read .r2 = s.r2 := rfl

@[simp] theorem setVerdict_read : (setVerdict b s).read r = s.read r := by cases r <;> rfl
@[simp] theorem setVerdict_verdict : (setVerdict b s).verdict = b := rfl
@[simp] theorem setVerdict_noinv : (setVerdict b s).noinv = s.noinv := rfl
@[simp] theorem setVerdict_phase : (setVerdict b s).phase = s.phase := rfl
@[simp] theorem setVerdict_cause : (setVerdict b s).cause = s.cause := rfl
@[simp] theorem setNoinv_read : (setNoinv b s).read r = s.read r := by cases r <;> rfl
@[simp] theorem setNoinv_noinv : (setNoinv b s).noinv = b := rfl
@[simp] theorem setNoinv_verdict : (setNoinv b s).verdict = s.verdict := rfl
@[simp] theorem setNoinv_phase : (setNoinv b s).phase = s.phase := rfl
@[simp] theorem setNoinv_cause : (setNoinv b s).cause = s.cause := rfl

@[simp] theorem withScript_read (ls : List ScriptLine) : (withScript ls s).read r = s.read r := by cases r <;> rfl
@[simp] theorem withScript_phase (ls : List ScriptLine) : (withScript ls s).phase = s.phase := rfl
@[simp] theorem withScript_cause (ls : List ScriptLine) : (withScript ls s).cause = s.cause := rfl
@[simp] theorem withScript_script (ls : List ScriptLine) : (withScript ls s).host.script = ls := rfl
@[simp] theorem withScript_readLog (ls : List ScriptLine) : (withScript ls s).host.readLog = s.host.readLog := rfl
@[simp] theorem logRead_read (i : Index) : (logRead i v s).read r = s.read r := by cases r <;> rfl
@[simp] theorem logRead_phase (i : Index) : (logRead i v s).phase = s.phase := rfl
@[simp] theorem logRead_cause (i : Index) : (logRead i v s).cause = s.cause := rfl
@[simp] theorem logRead_readLog (i : Index) : (logRead i v s).host.readLog = (i, v) :: s.host.readLog := rfl
@[simp] theorem logRead_script (i : Index) : (logRead i v s).host.script = s.host.script := rfl
@[simp] theorem queueAnswer_read (w : Nat) : (queueAnswer w s).read r = s.read r := by cases r <;> rfl
@[simp] theorem queueAnswer_phase (w : Nat) : (queueAnswer w s).phase = s.phase := rfl
@[simp] theorem queueAnswer_cause (w : Nat) : (queueAnswer w s).cause = s.cause := rfl

@[simp] theorem resetEvent_read : (resetEvent s).read r = 0 := by cases r <;> rfl
@[simp] theorem resetEvent_phase : (resetEvent s).phase = .idle := rfl
@[simp] theorem resetEvent_cause : (resetEvent s).cause = .noFault := rfl
@[simp] theorem resetEvent_verdict : (resetEvent s).verdict = false := rfl
@[simp] theorem resetEvent_noinv : (resetEvent s).noinv = false := rfl
@[simp] theorem resetEvent_host : (resetEvent s).host = s.host := rfl
@[simp] theorem resetEvent_rng : (resetEvent s).rng = s.rng := rfl
@[simp] theorem resetEvent_sched : (resetEvent s).sched = s.sched := rfl
@[simp] theorem resetEvent_resetPin : (resetEvent s).resetPin = false := rfl

end Sys2Proof.Machine
end

