-- ==== Sys2Proof/Laws/Ops.lean ====
section
/-! SUPPORT. What each shared operation can do, said once: the checks, the draw, and a whole command. -/

namespace Sys2Proof.Machine

theorem raise_eq (c : Cause) (s : State) : raise c s = .next { s with cause := c, phase := .fault } := rfl

theorem finish_eq (s : State) : finish s = .next { s with phase := .done } := rfl

theorem checkModulus_pass (s : State) (o : Result) (h : 1 ≤ s.n) : checkModulus s o = o := by
  unfold checkModulus; split
  · omega
  · rfl

theorem checkModulus_fail (s : State) (o : Result) (h : s.n < 1) : checkModulus s o = raise .errModulus s := if_pos h

theorem checkExponent_pass (e : Int) (s : State) (o : Result) (h : 0 ≤ e) : checkExponent e s o = o := by
  unfold checkExponent; split
  · omega
  · rfl

theorem checkExponent_fail (e : Int) (s : State) (o : Result) (h : e < 0) :
    checkExponent e s o = raise .errExponent s := if_pos h

theorem checkRange_pass (s : State) (o : Result) (h : 0 ≤ s.a) (h' : s.a < s.n) : checkRange s o = o := by
  unfold checkRange; split
  · omega
  · rfl

theorem checkRange_fail (s : State) (o : Result) (h : s.a < 0 ∨ s.n ≤ s.a) : checkRange s o = raise .errRange s := if_pos h

theorem checkCandidate_pass (s : State) (o : Result) (h : 2 ≤ s.n) : checkCandidate s o = o := by
  unfold checkCandidate; split
  · omega
  · rfl

theorem checkCandidate_fail (s : State) (o : Result) (h : s.n < 2) : checkCandidate s o = raise .errCandidate s := if_pos h

/-- An answer of the RNG has the bits asked for (spec R126). -/
theorem rngDraw_lt {bits : Nat} {g h : RngAgent} {w : Nat} (e : rngDraw bits g = some (w, h)) : w < 2 ^ bits := by
  unfold rngDraw at e
  split at e
  · cases e; exact Nat.mod_lt _ (by positivity)
  · split at e
    · cases e; exact Nat.mod_lt _ (by positivity)
    · cases e

/-- The three ends of a command: a fault; its results, with only result registers, flags and the RNG agent touched; or, for
PRIMETEST, no answer of the RNG yet. -/
theorem exec_next_cases {i : Instr} {s t : State} (h : exec i s = .next t) :
    (∃ c, c ≠ .noFault ∧ t = { s with cause := c, phase := .fault }) ∨
    (∃ x y z v m g, t = { s with r0 := x, r1 := y, r2 := z, verdict := v, noinv := m, rng := g, phase := .done }) ∨
    (i = .primetest ∧ t = s) := by
  have key : ∀ c : Cause, c ≠ .noFault → raise c s = .next t →
      ∃ c, c ≠ .noFault ∧ t = { s with cause := c, phase := .fault } :=
    fun c hc e => ⟨c, hc, by cases e; rfl⟩
  cases i <;> simp only [exec, execMulmod, execModexp, execEgcd, execModinv, execFinv, execFermat, execMr, execPrimetest,
    execRsaenc, execRsadec, rsaTransform, checkModulus, checkExponent, checkRange, checkCandidate, finish, primetestWith,
    setVerdict, setNoinv, write_r0, write_r1, write_r2] at h <;>
  (repeat' split at h) <;>
  first
  | exact .inl (key _ (by decide) h)
  | (cases h; exact .inr (.inr ⟨rfl, rfl⟩))
  | (cases h; exact .inr (.inl ⟨_, _, _, _, _, _, rfl⟩))

end Sys2Proof.Machine
end

