-- ==== Sys2Proof/Laws/Step.lean ====
section
/-! SUPPORT. What a step of the machine and a move of the HOST can do, said once. -/

namespace Sys2Proof.Machine

/-- Taking a turn uses up a turn and touches nothing else. -/
theorem takeTurn_eq (s : State) : ∃ c, (takeTurn s).2 = { s with sched := c } := by
  unfold takeTurn; split <;> exact ⟨_, rfl⟩

/-- The ENGINE has a move exactly in BUSY, and it is `complete` (spec R78). -/
theorem engineStep_some {s : State} {o : Result} : engineStep s = some o ↔ s.phase = .busy ∧ complete s = o := by
  unfold engineStep
  split <;> simp_all

/-- A step that goes on is a reset, a pause in which no agent has a move, a move of the HOST, or `Complete`; in the last two, from
the machine with at most a turn used up. -/
theorem step_next_cases {s t : State} (h : step s = .next t) :
    (s.resetPin = true ∧ t = resetEvent s) ∨
    ∃ u c, u = { s with sched := c } ∧
      (t = u ∨ hostStep u = some (.next t) ∨ (u.phase = .busy ∧ complete u = .next t)) := by
  unfold step advance at h
  split at h
  · left; cases h; exact ⟨by assumption, rfl⟩
  right
  have move : ∀ (a : Agent) (u : State), agentMove a u = .next t →
      t = u ∨ hostStep u = some (.next t) ∨ (u.phase = .busy ∧ complete u = .next t) := by
    intro a u hm
    cases a with
    | host =>
      simp only [agentMove] at hm
      cases hs : hostStep u with
      | none => rw [hs] at hm; cases hm; exact .inl rfl
      | some o => rw [hs] at hm; exact .inr (.inl (by rw [← hm]; rfl))
    | engine =>
      simp only [agentMove] at hm
      cases he : engineStep u with
      | none => rw [he] at hm; cases hm; exact .inl rfl
      | some o =>
        rw [he] at hm
        obtain ⟨hb, hc⟩ := engineStep_some.mp he
        exact .inr (.inr ⟨hb, by rw [hc, ← hm]; rfl⟩)
  split at h
  · obtain ⟨c, hc⟩ := takeTurn_eq s
    exact ⟨_, c, hc, move _ _ h⟩
  · split at h
    · exact ⟨s, s.sched, rfl, move _ _ h⟩
    · exact ⟨s, s.sched, rfl, move _ _ h⟩

/-- `Complete` is a command or an illegal word (spec R78). -/
theorem complete_cases (s : State) :
    (∃ i, decode s.cmdw = .ok i ∧ complete s = exec i s) ∨
    ((∃ e, decode s.cmdw = .error e) ∧ complete s = .next { s with cause := .errOpcode, phase := .fault }) := by
  unfold complete
  split
  · exact .inl ⟨_, by assumption, rfl⟩
  · exact .inr ⟨⟨_, by assumption⟩, rfl⟩

/-- `Complete` never stops: it ends in DONE or FAULT, but for a PRIMETEST whose draw the RNG does not answer (spec R78, R285). -/
theorem complete_ends (s : State) :
    (∃ t, complete s = .next t ∧ (t.phase = .done ∨ t.phase = .fault)) ∨
    (complete s = .next s ∧ decode s.cmdw = .ok .primetest ∧ rngDraw (bitlen s.n.toNat) s.rng = none) := by
  rcases complete_cases s with ⟨i, hi, he⟩ | ⟨-, he⟩
  · rw [he]
    cases i
    case primetest =>
      simp only [exec, execPrimetest, checkModulus, checkCandidate]
      repeat' split
      · exact .inl ⟨_, rfl, .inr rfl⟩
      · exact .inl ⟨_, rfl, .inr rfl⟩
      · exact .inr ⟨rfl, hi, by assumption⟩
      · exact .inl ⟨_, rfl, .inl rfl⟩
    all_goals
      left
      simp only [exec, execMulmod, execModexp, execEgcd, execModinv, execFinv, execFermat, execMr, execRsaenc, execRsadec,
        rsaTransform, checkModulus, checkExponent, checkRange, finish, raise]
      (repeat' split) <;> first | exact ⟨_, rfl, .inl rfl⟩ | exact ⟨_, rfl, .inr rfl⟩
  · exact .inl ⟨_, he, .inr rfl⟩

/-- A HostIssue that has a step latches the word, or is ignored in FAULT (spec R58). -/
theorem hostIssue_some {w : Word} {s t : State} (h : hostIssue w s = some t) :
    ((s.phase = .idle ∨ s.phase = .done) ∧ t = { s with cmdw := w, phase := .busy }) ∨ (s.phase = .fault ∧ t = s) := by
  unfold hostIssue at h
  split at h <;> simp_all

/-- A host write that goes on sets one operand register, issues a word, or is ignored (spec R56, R58). -/
theorem hostWriteFor_next {m : Option Nat} {i : Index} {v : Int} {s t : State}
    (h : hostWriteFor m i v s = some (.next t)) : s.phase ≠ .busy ∧
    (t = s ∨ (∃ w, hostIssue w s = some t) ∨
      ∃ r, hostWritable r = true ∧ s.phase ≠ .fault ∧ fitsBits m v = true ∧ t = s.write r v) := by
  unfold hostWriteFor at h
  split at h
  · cases h
  refine ⟨by assumption, ?_⟩
  split at h
  · split at h
    · cases hi : hostIssue (BitVec.ofInt 32 v) s with
      | none => rw [hi] at h; cases h
      | some u => rw [hi] at h; cases h; exact .inr (.inl ⟨_, hi⟩)
    · cases h
  · split at h
    · cases h
    · have hfit : fitsBits m v = true := by simp_all
      split at h
      · rename_i r hr
        cases h
        have hw : hostWritable r = true ∧ s.phase ≠ .fault := by
          unfold writeTarget at hr
          split at hr
          · split at hr
            · cases hr; simp_all
            · cases hr
          · cases hr
        exact .inr (.inr ⟨r, hw.1, hw.2, hfit, rfl⟩)
      · cases h; exact .inl rfl

/-- A move of the HOST that goes on (spec R55, R56, R58, R76): everything but the host agent is as before, except for an issue, a
write of an operand register, an answer queued for the RNG, or a reset. -/
theorem hostStep_next_cases {s t : State} (h : hostStep s = some (.next t)) :
    ∃ l rest, s.host.script = l :: rest ∧
      (t = { s with host := t.host } ∨
       (∃ w, hostIssue w (withScript rest s) = some t) ∨
       (∃ i v r, l = .wr i v ∧ hostWritable r = true ∧ s.phase ≠ .fault ∧ s.phase ≠ .busy ∧
         fitsBits Config.maxBits v = true ∧ t = (withScript rest s).write r v) ∨
       (∃ w, l = .rng w ∧ t = queueAnswer w (withScript rest s)) ∨
       (l = .reset ∧ t = resetEvent (withScript rest s))) := by
  unfold hostStep at h
  split at h
  · cases h
  rename_i l rest hl
  refine ⟨l, rest, hl, ?_⟩
  cases l with
  | rd i =>
    simp only [hostLine] at h
    cases hr : hostRead i s with
    | none => rw [hr] at h; cases h
    | some v => rw [hr] at h; cases h; exact .inl rfl
  | wr i v =>
    obtain ⟨hb, h1 | h1 | ⟨r, hr, hf, hv, h1⟩⟩ := hostWriteFor_next h
    · subst h1; exact .inl rfl
    · exact .inr (.inl h1)
    · exact .inr (.inr (.inl ⟨i, v, r, rfl, hr, hf, hb, hv, h1⟩))
  | cmdw w =>
    simp only [hostLine] at h
    cases hi : hostIssue w (withScript rest s) with
    | none => rw [hi] at h; cases h
    | some u => rw [hi] at h; cases h; exact .inr (.inl ⟨w, hi⟩)
  | wait => simp only [hostLine] at h; cases h; exact .inl rfl
  | rng w => simp only [hostLine] at h; cases h; exact .inr (.inr (.inr (.inl ⟨w, rfl, rfl⟩)))
  | reset => simp only [hostLine] at h; cases h; exact .inr (.inr (.inr (.inr ⟨rfl, rfl⟩)))

end Sys2Proof.Machine
end

