-- ==== Sys2Proof/Laws/HostSequences.lean ====
section
/-! SUPPORT. What each operation of the host sequences can do, said once. -/

namespace Sys2Proof.Machine

variable {α β : Type}

@[simp] theorem andThen_value (v : α) (s : State) (f : α → State → SeqResult β) : (SeqResult.value v s).andThen f = f v s := rfl
@[simp] theorem andThen_abort (why : Abort) (s : State) (f : α → State → SeqResult β) :
    (SeqResult.abort why s).andThen f = .abort why s := rfl
@[simp] theorem andThen_pending (s : State) (f : α → State → SeqResult β) : (SeqResult.pending s).andThen f = .pending s := rfl

/-- `Complete` of a legal word is the command (spec R78). -/
theorem complete_encode (i : Instr) (s : State) (h : s.cmdw = encode i) : complete s = exec i s := by
  unfold complete; rw [h]; cases i <;> rfl

/-- A port that is not BUSY is not waited for. -/
theorem awaitPort_ready {s : State} (h : s.phase ≠ .busy) : awaitPort s = some s := if_neg h

/-- A port that is BUSY is waited for until the command in flight has completed (spec R284). -/
theorem awaitPort_busy {s t : State} (h : s.phase = .busy) (hc : complete s = .next t) (ht : t.phase ≠ .busy) :
    awaitPort s = some t := by
  simp [awaitPort, h, hc, ht]

/-- The wait ends outside BUSY. -/
theorem awaitPort_some {s t : State} (h : awaitPort s = some t) : t.phase ≠ .busy := by
  unfold awaitPort at h
  split at h
  · split at h
    · split at h <;> simp_all
    · cases h
    · cases h
  · cases h; assumption

/-- Looking at a block in IDLE or DONE lets the sequence go on. -/
theorem awaitCompletion_ready {s : State} (h : s.phase = .idle ∨ s.phase = .done) : awaitCompletion s = .value () s := by
  rcases h with h | h <;> simp [awaitCompletion, awaitPort, outcome, h]

/-- Looking at a block in FAULT ends the sequence (spec R200, R286). -/
theorem awaitCompletion_fault {s : State} (h : s.phase = .fault) : awaitCompletion s = .abort (.blockFault s.cause) s := by
  simp [awaitCompletion, awaitPort, outcome, h]

/-- Waiting for a command that completes is looking at the block after it (spec R284). -/
theorem awaitCompletion_busy {s t : State} (h : s.phase = .busy) (hc : complete s = .next t) (ht : t.phase ≠ .busy) :
    awaitCompletion s = awaitCompletion t := by
  simp [awaitCompletion, awaitPort_busy h hc ht, awaitPort_ready ht]

/-- Waiting for a command that does not complete is never over (spec R285). -/
theorem awaitCompletion_held {s t : State} (h : s.phase = .busy) (hc : complete s = .next t) (ht : t.phase = .busy) :
    awaitCompletion s = .pending s := by
  simp [awaitCompletion, awaitPort, h, hc, ht]

/-- A sequence that waits for the port has not moved. -/
theorem awaitCompletion_pending {s t : State} (h : awaitCompletion s = .pending t) : t = s ∧ s.phase = .busy := by
  unfold awaitCompletion at h
  split at h
  · rename_i u hu
    have := awaitPort_some hu
    unfold outcome at h
    split at h <;> simp_all
  · rename_i hu
    cases h
    refine ⟨rfl, ?_⟩
    by_contra hb
    simp [awaitPort_ready hb] at hu

/-- A pseudo-instruction begun in BUSY is the one begun when the command in flight has completed (spec R56, R284). -/
theorem blockCall_busy {s t : State} (i : Instr) (ws : List (Reg × Int)) (h : s.phase = .busy) (hc : complete s = .next t)
    (ht : t.phase ≠ .busy) : blockCall i ws s = blockCall i ws t := by
  simp only [blockCall, awaitCompletion_busy h hc ht]

/-- A pseudo-instruction begun in BUSY waits as long as the command in flight does (spec R285). -/
theorem blockCall_held {s t : State} (i : Instr) (ws : List (Reg × Int)) (h : s.phase = .busy) (hc : complete s = .next t)
    (ht : t.phase = .busy) : blockCall i ws s = .pending s := by
  simp only [blockCall, awaitCompletion_held h hc ht, andThen_pending]

/-- A pseudo-instruction begun in FAULT ends the sequence (spec R200, R286). -/
theorem blockCall_fault {s : State} (i : Instr) (ws : List (Reg × Int)) (h : s.phase = .fault) :
    blockCall i ws s = .abort (.blockFault s.cause) s := by
  simp only [blockCall, awaitCompletion_fault h, andThen_abort]

/-- A write of an operand register outside BUSY and FAULT sets it, or the port refuses it (spec R6, R56). -/
theorem hostWrite_operand {s : State} {r : Reg} (v : Int) (hr : hostWritable r = true) (h : s.phase = .idle ∨ s.phase = .done) :
    hostWrite (indexOf r) v s =
      if fitsBits Config.maxBits v = false then some (.refused .writeTooWide) else some (.next (s.write r v)) := by
  have hb : s.phase ≠ .busy := by rcases h with h | h <;> simp [h]
  have hf : s.phase ≠ .fault := by rcases h with h | h <;> simp [h]
  have hi : indexOf r ≠ indexCmd := by cases r <;> decide
  have hw : writeTarget (indexOf r) s = some r := by cases r <;> simp_all [writeTarget, indexOf, regAt, hostWritable]
  simp only [hostWrite, hostWriteFor, hb, hi, hw, if_false]

/-- Writes of operand registers from IDLE or DONE all take effect, or end at one the port refuses (spec R6, R77). -/
theorem writeAll_cases {ws : List (Reg × Int)} (hr : ∀ p ∈ ws, hostWritable p.1 = true) :
    ∀ {s : State}, s.phase = .idle ∨ s.phase = .done →
      (∃ p ∈ ws, fitsBits Config.maxBits p.2 = false ∧ 
        ∃ t, writeAll ws s = .abort (.operandTooWide p.2) t ∧ t.phase = s.phase) ∨
      ((∀ p ∈ ws, fitsBits Config.maxBits p.2 = true) ∧
        writeAll ws s = .value () (ws.foldl (fun u p => u.write p.1 p.2) s)) := by
  induction ws with
  | nil => intro s _; exact .inr ⟨by simp, rfl⟩
  | cons p ws ih =>
    intro s h
    have hw := hostWrite_operand p.2 (hr p (by simp)) h
    by_cases hf : fitsBits Config.maxBits p.2 = true
    · have hgo : writeAll (p :: ws) s = writeAll ws (s.write p.1 p.2) := by simp [writeAll, hw, hf]
      rw [hgo]
      rcases ih (fun q hq => hr q (by simp [hq])) (s := s.write p.1 p.2) (by simpa using h) with ⟨q, hq, hf', t, h1, h2⟩ | ⟨h1, h2⟩
      · exact .inl ⟨q, by simp [hq], hf', t, h1, by simpa using h2⟩
      · exact .inr ⟨by simpa [hf] using h1, h2⟩
    · exact .inl ⟨p, by simp, by simpa using hf, s, by simp [writeAll, hw, hf], rfl⟩

/-- A pseudo-instruction from IDLE or DONE is the command run on its operands, or ends at an operand the port refuses. -/
theorem blockCall_cases {i : Instr} {ws : List (Reg × Int)} {s : State} (hr : ∀ p ∈ ws, hostWritable p.1 = true)
    (h : s.phase = .idle ∨ s.phase = .done) :
    (∃ p ∈ ws, fitsBits Config.maxBits p.2 = false ∧ 
      ∃ t, blockCall i ws s = .abort (.operandTooWide p.2) t ∧ t.phase = s.phase) ∨
    ((∀ p ∈ ws, fitsBits Config.maxBits p.2 = true) ∧
      blockCall i ws s =
        awaitCompletion { ws.foldl (fun u p => u.write p.1 p.2) s with cmdw := encode i, phase := .busy }) := by
  have hp : ∀ (ws : List (Reg × Int)) (s : State), (ws.foldl (fun u p => u.write p.1 p.2) s).phase = s.phase := by
    intro ws
    induction ws with
    | nil => intro s; rfl
    | cons p ws ih => intro s; simp [ih]
  simp only [blockCall, awaitCompletion_ready h, andThen_value]
  rcases writeAll_cases hr h with ⟨p, hm, hf, t, ht, hp'⟩ | ⟨hf, ht⟩
  · exact .inl ⟨p, hm, hf, t, by simp [ht], hp'⟩
  · refine .inr ⟨hf, ?_⟩
    have hi := hp ws s
    rcases h with h | h <;> rw [h] at hi <;> simp [ht, hostIssue, hi]

/-- The end of a command that completes into DONE (spec R78). -/
theorem awaitCompletion_done {i : Instr} {s t : State} (hb : s.phase = .busy) (hi : s.cmdw = encode i)
    (he : exec i s = .next t) (ht : t.phase = .done) : awaitCompletion s = .value () t := by
  rw [awaitCompletion_busy hb ((complete_encode i s hi).trans he) (by simp [ht]), awaitCompletion_ready (.inr ht)]

end Sys2Proof.Machine
end

