-- ==== Sys2Proof/Laws/PerInstr.lean ====
section
/-! SUPPORT. Statements about every command as syntax, one lemma per constructor. -/

namespace Sys2Proof.Laws.EncodeDecode

/-- A well-formed command encodes to a well-formed word that decodes to it (spec R70, R72). -/
def Statement (i : Instr) : Prop :=
  i.wellFormed = true → wordWellFormed (encode i) = true ∧ decode (encode i) = .ok i

theorem mulmod : Statement .mulmod := fun _ => ⟨rfl, rfl⟩
theorem modexp : Statement .modexp := fun _ => ⟨rfl, rfl⟩
theorem egcd : Statement .egcd := fun _ => ⟨rfl, rfl⟩
theorem modinv : Statement .modinv := fun _ => ⟨rfl, rfl⟩
theorem finv : Statement .finv := fun _ => ⟨rfl, rfl⟩
theorem fermat : Statement .fermat := fun _ => ⟨rfl, rfl⟩
theorem mr : Statement .mr := fun _ => ⟨rfl, rfl⟩
theorem primetest : Statement .primetest := fun _ => ⟨rfl, rfl⟩
theorem rsaenc : Statement .rsaenc := fun _ => ⟨rfl, rfl⟩
theorem rsadec : Statement .rsadec := fun _ => ⟨rfl, rfl⟩

end Sys2Proof.Laws.EncodeDecode
end

