-- ==== Sys2Proof/Tests/Slice0.lean ====
section
/-! SUPPORT. Tests of single steps, decoding and well-formedness, with results from spec/95_test_vectors.md, and for each statement
with hypotheses a concrete case that meets them. -/

namespace Sys2Proof.Tests

open Sys2Proof.Machine

/-- A block in BUSY with the given operands, all else as after reset. -/
def blk (a b n k : Int) : State := { State.reset with a := a, b := b, n := n, k := k, phase := .busy }

/-- A block whose RNG is scripted to answer `w` and has nothing else (spec R76). -/
def scriptedRng (w : Nat) (s : State) : State := { s with rng := { scripted := [w], attached := false, taken := 0 } }

/-- A block with no random-bit source. -/
def silentRng (s : State) : State := { s with rng := { scripted := [], attached := false, taken := 0 } }

/-- An IDLE block with script lines left. -/
def scripted (ls : List ScriptLine) : State := withScript ls State.reset

/-- A field of the next state, if there is one. -/
def nextOf {α : Type} (f : State → α) : Result → Option α
  | .next s => some (f s)
  | .fault _ => none
  | .refused _ => none

/-- The results a command shows: R0, R1, R2 and STATUS. -/
def shown (s : State) : Int × Int × Int × Word := (s.r0, s.r1, s.r2, statusWord s)

/-! ### Well-formedness: a refused word for each check -/

theorem test_wf_zero_field_refused : wordWellFormed 0x00000102#32 = false ∧ zeroFieldOk 0x00000102#32 = false ∧
    opcAssigned 0x00000102#32 = true := by decide
theorem test_wf_opcode_zero_refused : wordWellFormed 0x00000000#32 = false ∧ opcAssigned 0x00000000#32 = false ∧
    zeroFieldOk 0x00000000#32 = true := by decide
theorem test_wf_opcode_eleven_refused : wordWellFormed 0x0000000B#32 = false := by decide
theorem test_wf_accepts_bounds : wordWellFormed 0x00000001#32 = true ∧ wordWellFormed 0x0000000A#32 = true := by decide

/-! ### Decoding: the words of spec R72, bit by bit -/

theorem test_decode_mulmod : decode 0b00000000000000000000000000000001#32 = .ok .mulmod := by decide
theorem test_decode_modexp : decode 0b00000000000000000000000000000010#32 = .ok .modexp := by decide
theorem test_decode_egcd : decode 0b00000000000000000000000000000011#32 = .ok .egcd := by decide
theorem test_decode_modinv : decode 0b00000000000000000000000000000100#32 = .ok .modinv := by decide
theorem test_decode_finv : decode 0b00000000000000000000000000000101#32 = .ok .finv := by decide
theorem test_decode_fermat : decode 0b00000000000000000000000000000110#32 = .ok .fermat := by decide
theorem test_decode_mr : decode 0b00000000000000000000000000000111#32 = .ok .mr := by decide
theorem test_decode_primetest : decode 0b00000000000000000000000000001000#32 = .ok .primetest := by decide
theorem test_decode_rsaenc : decode 0b00000000000000000000000000001001#32 = .ok .rsaenc := by decide
theorem test_decode_rsadec : decode 0b00000000000000000000000000001010#32 = .ok .rsadec := by decide
theorem test_decode_all_ones : decode 0xFFFFFFFF#32 = .error .zeroFieldSet := by decide
theorem test_table_word : decodeTableWord 32 0x8 = some .primetest ∧ decodeTableWord 32 0xB = none := by decide

/-! ### Single commands (spec/95_test_vectors.md, parts 1 and 2) -/

theorem test_mulmod_negative : nextOf shown (exec .mulmod (blk (-7) 8 10 0)) = some (4, 0, 0, 0x2#32) := by decide
theorem test_mulmod_wide : nextOf State.r0 (exec .mulmod (blk (2 ^ 64 - 1) (2 ^ 64 - 1) (2 ^ 64 + 13) 0)) = some 196 := by
  decide
theorem test_modexp_trace : nextOf shown (exec .modexp (blk 4 13 497 0)) = some (445, 0, 0, 0x2#32) := by decide
theorem test_modexp_modulus_first : nextOf statusWord (exec .modexp (blk 5 (-1) 0 0)) = some 0x204#32 := by decide
theorem test_egcd_source : nextOf shown (exec .egcd (blk 240 46 0 0)) = some (-9, 2, 0, 0x2#32) := by decide
theorem test_egcd_negative : nextOf shown (exec .egcd (blk 3 (-10) 0 0)) = some (3, -1, 0, 0x2#32) := by decide
theorem test_modinv_normalised : nextOf shown (exec .modinv (blk 17 0 3120 0)) = some (2753, 1, 0, 0x2#32) := by decide
theorem test_modinv_sentinel : nextOf shown (exec .modinv (blk (-1) 0 5 0)) = some (0, -1, 0, 0x12#32) := by decide
theorem test_finv_source : nextOf shown (exec .finv (blk 3 0 11 0)) = some (4, 0, 0, 0x2#32) := by decide
theorem test_finv_of_one : nextOf statusWord (exec .finv (blk 3 0 1 0)) = some 0x304#32 := by decide
theorem test_fermat_source : nextOf shown (exec .fermat (blk 2 0 11 0)) = some (0, 0, 0, 0xA#32) := by decide
theorem test_fermat_composite : nextOf statusWord (exec .fermat (blk 3 0 561 0)) = some 0x2#32 := by decide
theorem test_mr_source : nextOf shown (exec .mr (blk 2 5 11 2)) = some (0, 0, 0, 0xA#32) := by decide
theorem test_mr_chain_reaches_one : nextOf statusWord (exec .mr (blk 2 35 561 4)) = some 0x2#32 := by decide
theorem test_primetest_prime :
    nextOf shown (exec .primetest (scriptedRng 2 (blk 0 0 13 0))) = some (2, 3, 2, 0xA#32) := by decide
theorem test_primetest_even : nextOf shown (exec .primetest (scriptedRng 2 (blk 0 0 4 0))) = some (2, 3, 0, 0x2#32) := by
  decide
theorem test_rsaenc_vector : nextOf shown (exec .rsaenc (blk 65 17 3233 0)) = some (2790, 0, 0, 0x2#32) := by decide
theorem test_rsaenc_range : nextOf statusWord (exec .rsaenc (blk 3233 17 3233 0)) = some 0x404#32 := by decide
theorem test_rsadec_vector : nextOf shown (exec .rsadec (blk 2790 2753 3233 0)) = some (65, 0, 0, 0x2#32) := by decide
theorem test_rsadec_exponent_before_range : nextOf statusWord (exec .rsadec (blk 7 (-1) 7 0)) = some 0x304#32 := by decide

/-! ### Primitives and host software (spec/95_test_vectors.md, part 2) -/

theorem test_tdiv_signs : tdiv (-7) 2 = -3 ∧ trem (-7) 2 = -1 ∧ tdiv 7 (-2) = -3 ∧ trem 7 (-2) = 1 := by decide
theorem test_mod_nn : modNN (-56) 10 = 4 ∧ modNN (-3) 3 = 0 ∧ modNN 5 1 = 0 := by decide
theorem test_bitlen : bitlen 0 = 0 ∧ bitlen 1 = 1 ∧ bitlen 255 = 8 ∧ bitlen 256 = 9 := by decide
theorem test_factor2 : factor2 2792 = (349, 3) ∧ factor2 1 = (1, 0) ∧ factor2 16 = (1, 4) := by decide
theorem test_combine_calls : combineCalls 4 10 497 = 5 ∧ combineCalls 4 13 497 = 6 ∧ combineCalls 65 2753 3233 = 16 ∧
    (powCount 4 13 497).1 = 445 := by decide
theorem test_be2int : be2int [0x6f#8, 0x72#8, 0x6c#8, 0x64#8, 0x21#8] = 478661076001 ∧ be2int [] = 0 := by decide
theorem test_int2be : int2be 478661076001 = [0x6f#8, 0x72#8, 0x6c#8, 0x64#8, 0x21#8] ∧ int2be 256 = [1#8, 0#8] := by decide
theorem test_cipher_block :
    (match cipherBlock { blk 0 0 0 0 with r0 := 106667862773855140258906718122152983794 } with
      | .value out _ => out
      | .abort _ _ => []
      | .pending _ => []) =
      [0x50#8, 0x3f#8, 0x7b#8, 0xac#8, 0x92#8, 0x87#8, 0xca#8, 0xeb#8, 0x3e#8, 0x6b#8, 0x48#8, 0x97#8, 0x2f#8, 0x9e#8,
        0x7c#8, 0xf2#8] := by decide
theorem test_hello_chunks : (chunksOf 8 (utf8Encode "Hello, World!".toList)).map be2int =
    [5216694956356018263, 478661076001] := by decide
theorem test_plain_chunk :
    (match plainChunk { blk 0 0 0 0 with r0 := 478661076001 } with
      | .value t _ => t
      | .abort _ _ => []
      | .pending _ => []) = "orld!".toList := by decide
theorem test_utf8_wide : utf8Decode [0xE2#8, 0x82#8, 0xAC#8] = some ['€'] ∧ utf8Decode [0xC0#8, 0x80#8] = none := by decide
theorem test_key_record : loadKey (storeKey { modulus := 3233, exponent := 17 }) = some { modulus := 3233, exponent := 17 } := by
  decide
theorem test_key_files :
    storeKeys (keyFilesOf (3233, 17, 2753)) =
      (("3233".toList, "17".toList), ("3233".toList, "2753".toList)) := by decide
theorem test_decimal_strings : ofDecimal "0017".toList = some 17 ∧ ofDecimal "-17".toList = none ∧ ofDecimal [] = none := by decide
theorem test_limbs : limbMul 256 [255, 255] [255, 255] = [1, 0, 254, 255] := by decide

theorem test_pseudo_instruction : mulmodScript 7 8 10 =
    [.wr 0x02#8 7, .wr 0x03#8 8, .wr 0x04#8 10, .cmdw 0x00000001#32, .wait, .rd 0x08#8] := by decide
theorem test_pseudo_primetest : primetestScript 13 =
    [.wr 0x04#8 13, .cmdw 0x00000008#32, .wait, .rd 0x01#8] := by decide

/-! ### A pseudo-instruction begun in BUSY: the command in flight ends first (spec R56, R284, R285, R200) -/

theorem test_block_call_waits :
    blockCall .mulmod [] { blk 7 8 10 0 with cmdw := 3#32 } =
      .value () { blk 7 8 10 0 with cmdw := 1#32, r0 := 6, r1 := 1, phase := .done } := by decide
theorem test_block_call_held :
    blockCall .mulmod [] (silentRng { blk 7 8 13 0 with cmdw := 8#32 }) = .pending (silentRng { blk 7 8 13 0 with cmdw := 8#32 }) := by
  decide
theorem test_block_call_aborts_with_the_command_in_flight :
    blockCall .mulmod [] { blk 7 8 10 0 with cmdw := 0x102#32 } =
      .abort (.blockFault .errOpcode) { blk 7 8 10 0 with cmdw := 0x102#32, cause := .errOpcode, phase := .fault } := by decide

/-! ### Steps, port and faults (spec/95_test_vectors.md, "Faults and phases") -/

theorem test_step_fetch_word : nextOf shown (step (State.reset.withFetchWord 32 3)) = some (1, 0, 0, 0x2#32) := by decide
theorem test_step_illegal_word : nextOf statusWord (step (State.reset.withFetchWord 32 0x102)) = some 0x104#32 := by decide
theorem test_step_idle : nextOf id (step State.reset) = some State.reset := by decide
theorem test_issue_enters_busy : nextOf (fun s => (s.phase, s.cmdw)) (step (scripted [.cmdw 8#32])) = some (.busy, 8#32) := by
  decide
theorem test_verdict_carried_into_fault :
    nextOf statusWord (step ({ State.reset with verdict := true }.withFetchWord 32 0)) = some 0x10C#32 := by decide
theorem test_write_ignored_in_fault :
    (hostWriteFor none 0x02#8 9 { State.reset with phase := .fault, cause := .errOpcode }).bind (nextOf State.a) = some 0 := by
  decide
theorem test_write_sets_n : (hostWriteFor none 0x04#8 497 State.reset).bind (nextOf State.n) = some 497 := by decide
theorem test_write_of_result_ignored : (hostWriteFor none 0x08#8 9 State.reset).bind (nextOf id) = some State.reset := by decide
theorem test_read_after_reset : hostRead 0x00#8 State.reset = some 0 ∧ hostRead 0x01#8 State.reset = some 0 ∧
    hostRead 0x06#8 State.reset = some 0 := by decide
theorem test_read_held_in_busy : hostRead 0x08#8 (blk 0 0 0 0) = none ∧ hostRead 0x01#8 (blk 0 0 0 0) = some 1 := by decide
theorem test_reset_from_fault :
    nextOf id (step { State.reset with phase := .fault, cause := .errRange, a := 3233, resetPin := true }) =
      some State.reset := by decide

/-! ### Witnesses: for each statement with hypotheses, concrete cases that meet them -/

/-- Any MAXBITS carries 0 and 1. -/
theorem fits_bit (v : Int) (h : v.natAbs ≤ 1) : fitsBits Config.maxBits v = true := by
  unfold fitsBits Config.maxBits
  cases Config.maxBitsLess1 with
  | none => rfl
  | some m =>
    have : bitlen v.natAbs ≤ m + 1 := by
      rw [bitlen_le_iff]
      have : 2 ^ (m + 1) ≥ 2 := by rw [pow_succ]; have := Nat.one_le_two_pow (n := m); omega
      omega
    simpa using this

theorem witness_StepRunsDecodedCommand_alone :
    (blk 0 0 0 0).resetPin = false ∧ ({ blk 0 0 0 0 with cmdw := 3#32 } : State).phase = .busy ∧
      decode ({ blk 0 0 0 0 with cmdw := 3#32 } : State).cmdw = .ok .egcd ∧
      (hostStep { blk 0 0 0 0 with cmdw := 3#32 }).isNone = true := by decide
theorem witness_StepRunsDecodedCommand_contested :
    (takeTurn { withScript [.rd 0x01#8] (blk 0 0 0 0) with
        cmdw := 3#32, sched := { scripted := [.engine], taken := 0 } }).1 = .engine ∧
      (hostStep { withScript [.rd 0x01#8] (blk 0 0 0 0) with
        cmdw := 3#32, sched := { scripted := [.engine], taken := 0 } }).isSome = true := by decide
theorem witness_StepPerformsHostMove_move :
    (scripted [.rd 0x02#8]).resetPin = false ∧ (scripted [.rd 0x02#8]).phase ≠ .busy ∧
      (hostStep (scripted [.rd 0x02#8])).isSome = true := by decide
theorem witness_StepPerformsHostMove_none : State.reset.phase ≠ .busy ∧ (hostStep State.reset).isNone = true := by decide
theorem witness_StepPerformsHostMove_contested :
    (takeTurn { withScript [.wait] (blk 0 0 0 0) with sched := { scripted := [.host], taken := 0 } }).1 = .host ∧
      (hostStep (takeTurn { withScript [.wait] (blk 0 0 0 0) with sched := { scripted := [.host], taken := 0 } }).2).isSome =
        true := by decide
theorem witness_IllegalWordFaultsAtCompletion :
    (blk 0 0 0 0).resetPin = false ∧ (blk 0 0 0 0).phase = .busy ∧ (hostStep (blk 0 0 0 0)).isNone = true ∧
      (blk 0 0 0 0).cmdw.toNat % 256 = 0 ∧ 256 ≤ (0x00000101#32).toNat ∧ 0x0B ≤ (0x0000000B#32).toNat % 256 := by decide
theorem witness_IllegalWordFaultsAtCompletion_contested :
    (takeTurn { withScript [.wait] (blk 0 0 0 0) with
        cmdw := 0x102#32, sched := { scripted := [.engine], taken := 0 } }).1 = .engine ∧
      (hostStep { withScript [.wait] (blk 0 0 0 0) with
        cmdw := 0x102#32, sched := { scripted := [.engine], taken := 0 } }).isSome = true := by decide
theorem witness_PhaseTransitionsAreListed :
    nextOf State.phase (step (scripted [.cmdw 1#32])) = some .busy ∧
      nextOf State.phase (step ({ State.reset with phase := .done }.withFetchWord 32 1)) = some .fault := by decide
theorem witness_FaultStaysUntilReset :
    ({ scripted [.cmdw 1#32] with phase := .fault } : State).phase = .fault ∧
      ¬ ({ scripted [.cmdw 1#32] with phase := .fault } : State).ResetNext ∧
      nextOf State.phase (step { scripted [.cmdw 1#32] with phase := .fault }) = some .fault := by decide
theorem witness_ResetClearsTheBlock :
    ({ blk 1 2 3 4 with resetPin := true } : State).resetPin = true ∧
      (withScript [.reset, .wait] (blk 1 2 3 4)).host.script = [.reset, .wait] := by decide
theorem witness_StepStopsOnlyAtThePort :
    (match step (scripted [.wr 0x00#8 (-1)]) with
      | .next _ => false
      | .fault f => f == .notACommandWord
      | .refused _ => false) = true ∧
    (match step (scripted [.wr 0x00#8 (2 ^ 32)]) with
      | .next _ => false
      | .fault f => f == .notACommandWord
      | .refused _ => false) = true := by decide
theorem witness_CauseAgreesWithPhaseInvariant :
    ({ blk 0 0 0 0 with cmdw := 1#32 } : State).CauseAgrees ∧
      nextOf State.cause (step { blk 0 0 0 0 with cmdw := 1#32 }) = some .errModulus := by decide
theorem witness_RegistersFitInvariant :
    ({ blk 0 1 1 0 with cmdw := 3#32 } : State).RegistersFit ∧
      nextOf State.r1 (step { blk 0 1 1 0 with cmdw := 3#32 }) = some 1 :=
  ⟨fun r => fits_bit _ (by cases r <;> decide), by decide⟩

theorem witness_MulmodComputesTheResidue : (blk 7 8 0 0).n < 1 ∧ 1 ≤ (blk 7 8 1 0).n := by decide
theorem witness_ModexpComputesThePower :
    (blk 2 0 0 0).n < 1 ∧ (1 ≤ (blk 2 (-1) 1 0).n ∧ (blk 2 (-1) 1 0).b < 0) ∧ 1 ≤ (blk 2 0 1 0).n ∧ 0 ≤ (blk 2 0 1 0).b := by
  decide
theorem witness_EgcdWritesCoefficientAndRemainder :
    (blk 5 0 0 0).b = 0 ∧ ((blk 0 (-5) 0 0).a = 0 ∧ (blk 0 (-5) 0 0).b ≠ 0) ∧ (blk 240 46 0 0).b ≠ 0 := by decide
theorem witness_ModinvWritesInverseOrSentinel :
    (blk 3 0 0 0).n < 1 ∧ (1 ≤ (blk 4 0 10 0).n ∧ (egcd 4 10).2 ≠ 1) ∧ ((egcd 3 10).2 = 1 ∧ (egcd 3 10).1 < 0) ∧
      (egcd (-3) 10).2 = 1 ∧ 0 ≤ (egcd (-3) 10).1 ∧ (egcd 0 1).2 = 1 ∧ 0 ≤ (egcd 0 1).1 := by decide
theorem witness_ModinvAnswerIsTheInverse :
    1 ≤ (blk 3 0 10 0).n ∧ 0 ≤ (blk 3 0 10 0).a ∧ nextOf State.noinv (exec .modinv (blk 3 0 10 0)) = some false ∧
      nextOf State.noinv (exec .modinv (blk 0 0 5 0)) = some true ∧ nextOf State.r0 (exec .modinv (blk 0 0 1 0)) = some 0 ∧
      nextOf State.noinv (exec .modinv (blk (-3) 0 10 0)) = some false ∧ nextOf State.r0 (exec .modinv (blk (-3) 0 10 0)) = some 3 := by
  decide
theorem witness_FinvComputesThePower : (blk 3 0 0 0).n < 1 ∧ (blk 3 0 1 0).n = 1 ∧ 2 ≤ (blk 3 0 2 0).n := by decide
theorem witness_FinvInvertsModuloAPrime : Nat.Prime 11 ∧ (blk 3 0 11 0).n = (11 : Nat) ∧ ¬ (blk 3 0 11 0).n ∣ (blk 3 0 11 0).a :=
  ⟨by norm_num, rfl, by decide⟩
theorem witness_FermatDecidesByThePower : (blk 2 0 0 0).n < 1 ∧ 1 ≤ (blk 5 0 1 0).n := by decide
theorem witness_FermatOfPrimesAndMultiples :
    (Nat.Prime 11 ∧ (blk 2 0 11 0).n = (11 : Nat) ∧ ¬ (blk 2 0 11 0).n ∣ (blk 2 0 11 0).a) ∧
      2 ≤ (blk 0 0 2 0).n ∧ (blk 0 0 2 0).n ∣ (blk 0 0 2 0).a :=
  ⟨⟨by norm_num, rfl, by decide⟩, by decide, by decide⟩
theorem witness_MrDecidesBySquaringChain :
    (blk 2 5 0 2).n < 1 ∧ (1 ≤ (blk 2 (-5) 1 1).n ∧ (blk 2 (-5) 1 1).b < 0) ∧ 1 ≤ (blk 2 0 1 0).n ∧ 0 ≤ (blk 2 0 1 0).b := by
  decide
theorem witness_MrDegenerateWitnesses :
    (2 : Int) ≤ 2 ∧ (1 ≤ 1 ∧ (0 : Int) % 2 = 0) ∧ (3 : Int) % 2 = 1 ∧ ((8 : Int) % 9 = 9 - 1 ∧ 1 % 2 = 1) := by decide
theorem witness_MrAcceptsPrimes :
    Nat.Prime 13 ∧ 13 ≠ 2 ∧ (blk 2 3 13 2).n = (13 : Nat) ∧ 0 ≤ (blk 2 3 13 2).b ∧ 0 ≤ (blk 2 3 13 2).k ∧
      (blk 2 3 13 2).n - 1 = (blk 2 3 13 2).b * 2 ^ (blk 2 3 13 2).k.toNat ∧ (blk 2 3 13 2).b % 2 = 1 ∧
      ¬ (blk 2 3 13 2).n ∣ (blk 2 3 13 2).a :=
  ⟨by norm_num, by decide, rfl, by decide, by decide, by decide, by decide, by decide⟩
theorem witness_PrimetestRunsOneRound :
    (blk 0 0 0 0).n < 1 ∧ (blk 0 0 1 0).n = 1 ∧ 2 ≤ (blk 0 0 2 0).n ∧
      rngDraw (bitlen (scriptedRng 3 (blk 0 0 2 0)).n.toNat) (scriptedRng 3 (blk 0 0 2 0)).rng =
        some (3, { scripted := [], attached := false, taken := 0 }) := by decide
theorem witness_PrimetestWaitsForTheDraw :
    2 ≤ (silentRng (blk 0 0 2 0)).n ∧ (silentRng (blk 0 0 2 0)).rng.scripted = [] ∧
      (silentRng (blk 0 0 2 0)).rng.attached = false ∧ (silentRng (blk 0 0 2 0)).resetPin = false ∧
      (silentRng (blk 0 0 2 0)).phase = .busy ∧
      (({ silentRng (blk 0 0 2 0) with cmdw := 8#32 } : State).cmdw = encode .primetest) ∧
      (hostStep { silentRng (blk 0 0 2 0) with cmdw := 8#32 }).isNone = true := by decide
theorem witness_RngAnswersLieInRange :
    rngDraw 4 { scripted := [21], attached := false, taken := 0 } = some (5, { scripted := [], attached := false, taken := 0 }) ∧
      rngDraw 4 { scripted := [], attached := false, taken := 0 } = none ∧ 15 < 2 ^ 4 := by decide
theorem witness_RsaTransformsComputeThePower :
    (blk 0 0 0 0).n < 1 ∧ (1 ≤ (blk 0 (-1) 1 0).n ∧ (blk 0 (-1) 1 0).b < 0) ∧
      (0 ≤ (blk 1 0 1 0).b ∧ (blk 1 0 1 0).n ≤ (blk 1 0 1 0).a) ∧ (blk (-1) 0 1 0).a < 0 ∧
      1 ≤ (blk 0 0 1 0).n ∧ 0 ≤ (blk 0 0 1 0).b ∧ 0 ≤ (blk 0 0 1 0).a ∧ (blk 0 0 1 0).a < (blk 0 0 1 0).n := by decide
theorem witness_RsaRoundTrip :
    Nat.Prime 61 ∧ Nat.Prime 53 ∧ 61 ≠ 53 ∧ (blk 65 17 3233 0).n = (61 : Nat) * (53 : Nat) ∧ 0 ≤ (blk 65 17 3233 0).a ∧
      (blk 65 17 3233 0).a < (blk 65 17 3233 0).n ∧ 0 ≤ (blk 65 17 3233 0).b ∧
      (((61 : Nat) - 1 : Int) * ((53 : Nat) - 1)) ∣ (blk 65 17 3233 0).b * (2753 : Nat) - 1 :=
  ⟨by norm_num, by norm_num, by decide, by decide, by decide, by decide, by decide, by decide⟩

theorem witness_ModulusBelowOneFaults : (Instr.mulmod ≠ .egcd) ∧ (blk 0 0 0 0).n < 1 := by decide
theorem witness_NegativeExponentFaults :
    (1 ≤ (blk 0 (-1) 1 0).n ∧ (Instr.mr = .mr) ∧ (blk 0 (-1) 1 0).b < 0) ∧ 1 ≤ (blk 0 0 1 0).n ∧ (blk 0 0 1 0).n - 2 < 0 := by
  decide
theorem witness_RangeAndCandidateFaults :
    1 ≤ (blk 1 0 1 0).n ∧ 0 ≤ (blk 1 0 1 0).b ∧ (blk 1 0 1 0).a ≥ (blk 1 0 1 0).n ∧ (blk (-1) 0 1 0).a < 0 ∧
      (blk 1 0 1 0).n = 1 := by decide
theorem witness_FirstFailedCheckIsTheFault :
    firstFault .rsaenc (blk 7 (-1) 7 0) = .errExponent ∧ firstFault .rsaenc (blk 6 0 7 0) = .noFault := by decide
theorem witness_NoCommandWritesOperands : nextOf State.a (exec .mulmod (blk 7 8 10 0)) = some 7 := by decide
theorem witness_UnnamedResultsKeepTheirValue :
    nextOf shown (exec .mulmod { blk 7 8 10 0 with r1 := 5, r2 := 6, verdict := true, noinv := true }) =
      some (6, 5, 6, 0x1A#32) ∧ Reg.r1 ∉ writesRegs .mulmod ∧ firstFault .mulmod (blk 7 8 0 0) ≠ .noFault := by decide
theorem witness_ResultsDependOnNamedOperands :
    (blk 7 8 10 0).phase = .busy ∧ (blk 7 8 10 5).phase = .busy ∧
      (∀ r ∈ readsRegs .mulmod, (blk 7 8 10 0).read r = (blk 7 8 10 5).read r) ∧
      nextOf State.phase (exec .mulmod (blk 7 8 10 0)) = some .done ∧
      nextOf State.phase (exec .mulmod (blk 7 8 10 5)) = some .done := by decide

theorem witness_HostReadReturnsTheTable :
    (withScript [.rd 0x08#8] (blk 0 0 0 0)).host.script = .rd 0x08#8 :: [] ∧ (blk 0 0 0 0).phase = .busy ∧
      (0x08#8 ≠ 0x00#8) ∧ (0x08#8 ≠ 0x01#8) ∧ (scripted [.rd 0xFF#8]).phase ≠ .busy := by decide
theorem witness_HostWriteSetsOperandsOnly :
    (scripted [.wr 0x05#8 1]).host.script = .wr 0x05#8 1 :: [] ∧ 0x05#8 ≠ 0x00#8 ∧ fitsBits Config.maxBits 1 = true ∧
      (scripted [.wr 0x05#8 1]).phase = .idle ∧ (withScript [.wr 0x05#8 1] (blk 0 0 0 0)).phase = .busy ∧
      ({ scripted [.wr 0x05#8 1] with phase := .fault } : State).phase = .fault :=
  ⟨rfl, by decide, fits_bit 1 (by decide), rfl, rfl, rfl⟩
theorem witness_OverwideWriteIsRefused :
    State.reset.phase ≠ .busy ∧ 0x02#8 ≠ 0x00#8 ∧ 2 ^ 3 ≤ (-8 : Int).natAbs ∧ (7 : Int).natAbs < 2 ^ 3 := by decide
theorem witness_HostIssueLatchesTheWord :
    (scripted [.wr 0x00#8 10]).host.script = .wr 0x00#8 (0xA#32).toNat :: [] ∧ (scripted [.cmdw 1#32]).phase = .idle ∧
      (blk 0 0 0 0).phase = .busy ∧ ({ State.reset with phase := .fault } : State).phase = .fault := by decide
theorem witness_WaitPollsStatus :
    (withScript [.wait] (blk 0 0 0 0)).host.script = .wait :: [] ∧ (withScript [.wait] (blk 0 0 0 0)).phase = .busy ∧
      (scripted [.wait]).phase ≠ .busy := by decide

theorem witness_TruncatingDivision : (-2 : Int) ≠ 0 := by decide
theorem witness_NonNegativeResidue : (1 : Int) ≤ 1 ∧ (0 : Int) ≤ 4 ∧ (4 : Int) < 10 ∧ (10 : Int) ∣ -56 - 4 := by decide
theorem witness_MulModIsACommutativeMonoid : (1 : Int) ≤ 10 ∧ (0 : Int) ≤ 9 ∧ (9 : Int) < 10 := by decide
theorem witness_PowModIsThePower : (1 : Int) ≤ 497 ∧ bitlen 13 ≤ 4 := by decide
theorem witness_PowModLaws : (1 : Int) ≤ 1 := by decide
theorem witness_CombineCallCount : 0 < 1 ∧ combineCalls 7 1 10 = 1 ∧ bitlen 1 = 1 := by decide
theorem witness_Factor2SplitsOffTwos : 1 ≤ 12 ∧ 12 = 3 * 2 ^ 2 ∧ 3 % 2 = 1 := by decide
theorem witness_EgcdRecurrence : (46 : Int).natAbs ≤ 46 ∧ (46 : Int) ≠ 0 ∧ (0 : Int).natAbs ≤ 0 := by decide
theorem witness_EgcdLaws : (0 : Int) ≤ 3 ∧ (1 : Int) ≤ 10 ∧ (egcd 3 10).2 = 1 := by decide
theorem witness_LimbMultiplicationIsTheProduct : (∀ x ∈ [255, 255], x < 2 ^ 8) ∧ ∀ y ∈ [1], y < 2 ^ 8 := by decide
theorem witness_BytesOfIntegers : 0 < 256 ∧ be2int [0#8, 1#8, 0#8] = 256 ∧ (int2be 256).length ≤ 16 := by decide
theorem witness_CoprimeSearchFindsACoprime :
    (1 : Int) ≤ 1 ∧ fitsBits Config.maxBits 1 = true ∧ State.reset.phase = .idle ∧ ({ State.reset with phase := .done } : State).phase = .done :=
  ⟨by decide, fits_bit 1 (by decide), rfl, rfl⟩
theorem witness_CoprimeSearchFindsACoprime_in_flight :
    ({ blk 240 46 0 0 with cmdw := 3#32 } : State).phase = .busy ∧
      nextOf State.phase (complete { blk 240 46 0 0 with cmdw := 3#32 }) = some .done := by decide
theorem witness_CoprimeSearchFindsACoprime_ends :
    coprimeSearch 1 0 { State.reset with phase := .fault, cause := .errRange } =
        .abort (.blockFault .errRange) { State.reset with phase := .fault, cause := .errRange } ∧
      coprimeSearch 1 0 (silentRng { blk 0 0 13 0 with cmdw := 8#32 }) = .pending (silentRng { blk 0 0 13 0 with cmdw := 8#32 }) := by
  decide
theorem witness_RsaRoundTrip_fails_for_equal_primes :
    (blk 61 7 3721 0).a = 61 ∧ (blk 61 7 3721 0).b = 7 ∧ (blk 61 7 3721 0).n = 3721 := by decide
theorem witness_KeyGenReturnsInverseExponents :
    2 ≤ 2 ∧ State.reset.phase = .idle ∧ ({ State.reset with phase := .done } : State).phase = .done := by decide
theorem witness_RandomPrimeReturnsAnAcceptedCandidate :
    2 ≤ 2 ∧ State.reset.phase = .idle ∧ (3 : Int) = 2 ^ (2 - 1) + (1 % 2 ^ (2 - 1) : Nat) ∧
      randomPrime 0 2 1 State.reset = .pending State.reset := by decide
theorem witness_CiphertextIsSixteenBytesAChunk :
    (0 : Int) < ({ blk 0 0 0 0 with r0 := 2 ^ 128 - 1 } : State).r0 ∧
      ({ blk 0 0 0 0 with r0 := 2 ^ 128 - 1 } : State).r0 < 2 ^ 128 := by decide

end Sys2Proof.Tests
end

section
/-! PROOFS for spec/00_scope.md: the arithmetic primitives (R10, R11, R14). -/

namespace Sys2Proof.Machine

/-- The truncating quotient by signs and magnitudes (spec R10). -/
theorem tdiv_eq_sign_mul_natAbs (a b : Int) :
    tdiv a b = a.sign * b.sign * ((a.natAbs / b.natAbs : Nat) : Int) := by
  have hsign := Int.sign_tdiv a b
  have habs : (a.tdiv b).natAbs = a.natAbs / b.natAbs := Int.natAbs_tdiv a b
  rw [tdiv_eq, ← Int.sign_mul_natAbs (a.tdiv b), habs, hsign]
  split
  · rename_i hlt
    simp [Nat.div_eq_of_lt hlt]
  · rfl

/-- The truncating remainder is 0 or has the sign of the dividend (spec R10). -/
theorem trem_eq_zero_or_sign_eq (a b : Int) : trem a b = 0 ∨ (trem a b).sign = a.sign := by
  rw [trem_eq_tmod]
  have hsign := Int.sign_tmod a b
  split at hsign
  · exact .inl (Int.sign_eq_zero_iff_zero.mp hsign)
  · exact .inr hsign

/-- The non-negative residue by way of the truncating remainder (spec R11). -/
theorem modNN_eq_trem (v n : Int) (h : 1 ≤ n) : modNN v n = if 0 ≤ trem v n then trem v n else trem v n + n := by
  have hlt := trem_natAbs_lt v n (by omega)
  have hrem := Int.mul_tdiv_add_tmod v n
  rw [modNN_eq_emod v n h, trem_eq_tmod] at *
  have hmod : v.tmod n % n = v % n := by
    conv_rhs => rw [← hrem]
    simp
  rw [← hmod]
  split
  · exact Int.emod_eq_of_lt (by assumption) (by omega)
  · rw [← Int.add_emod_right]
    exact Int.emod_eq_of_lt (by omega) (by omega)

/-- The non-negative residue is the only value of `[0, n)` congruent to `v` (spec R11). -/
theorem eq_modNN_of_dvd {v n r : Int} (h : 1 ≤ n) (hr : 0 ≤ r) (hrn : r < n) (hd : n ∣ v - r) : r = modNN v n := by
  rw [modNN_eq_emod v n h, Int.emod_eq_emod_iff_emod_sub_eq_zero.mpr (Int.emod_eq_zero_of_dvd hd)]
  exact (Int.emod_eq_of_lt hr hrn).symm

theorem dvd_sub_modNN (v n : Int) : n ∣ v - modNN v n := ⟨v.fdiv n, by simp [modNN]⟩

theorem mulMod_comm (x y n : Int) : mulMod x y n = mulMod y x n := by
  simp only [mulMod, mul_comm]

theorem mulMod_assoc (x y z n : Int) (h : 1 ≤ n) : mulMod (mulMod x y n) z n = mulMod x (mulMod y z n) n := by
  simp only [mulMod_eq_emod _ _ _ h]
  calc x * y % n * z % n = x * y * z % n := (Int.mod_modEq (x * y) n).mul_right z
    _ = x * (y * z) % n := by rw [mul_assoc]
    _ = x * (y * z % n) % n := ((Int.mod_modEq (y * z) n).mul_left x).symm

theorem mulMod_modNN_one {x n : Int} (h : 1 ≤ n) (hx : 0 ≤ x) (hxn : x < n) : mulMod (modNN 1 n) x n = x := by
  rw [mulMod_eq_emod _ _ _ h, modNN_eq_emod 1 n h]
  calc 1 % n * x % n = 1 * x % n := (Int.mod_modEq 1 n).mul_right x
    _ = x := by rw [one_mul, Int.emod_eq_of_lt hx hxn]

end Sys2Proof.Machine

open Sys2Proof.Machine

/-- Settles O45, by the signs and magnitudes of the library's truncating division. -/
theorem truncatingDivision : Obligations.TruncatingDivision := fun a b hb =>
  ⟨tdiv_eq_sign_mul_natAbs a b, rfl, trem_natAbs_lt a b hb, trem_eq_zero_or_sign_eq a b⟩

/-- Settles O46: `mod_nn` is the library's residue, which is congruent to `trem`. -/
theorem nonNegativeResidue : Obligations.NonNegativeResidue := fun v n h =>
  ⟨rfl, modNN_nonneg v n h, modNN_lt v n h, dvd_sub_modNN v n, fun _ hr hrn hd => eq_modNN_of_dvd h hr hrn hd,
    modNN_eq_trem v n h⟩

/-- Settles O47: a residue stands for its value in a product modulo `n`. -/
theorem mulModIsACommutativeMonoid : Obligations.MulModIsACommutativeMonoid := fun x y z n h =>
  ⟨rfl, mulMod_assoc x y z n h, mulMod_comm x y n, mulMod_modNN_one h⟩
end

section
/-! PROOFS for spec/00_scope.md: byte sequences (R13). -/

namespace Sys2Proof.Machine

@[simp] theorem be2int_nil : be2int [] = 0 := rfl

theorem be2int_concat (bs : List Byte) (b : Byte) : be2int (bs ++ [b]) = be2int bs * 256 + b.toNat := by
  simp [be2int]

theorem be2int_append (xs ys : List Byte) : be2int (xs ++ ys) = be2int xs * 256 ^ ys.length + be2int ys := by
  induction ys using List.reverseRecOn with
  | nil => simp
  | append_singleton ys b ih =>
    rw [← List.append_assoc, be2int_concat, be2int_concat, ih, List.length_append, List.length_singleton, pow_succ]
    ring

theorem be2int_cons (b : Byte) (bs : List Byte) : be2int (b :: bs) = b.toNat * 256 ^ bs.length + be2int bs := by
  simpa [be2int] using be2int_append [b] bs

theorem be2int_lt (bs : List Byte) : be2int bs < 256 ^ bs.length := by
  induction bs using List.reverseRecOn with
  | nil => simp
  | append_singleton bs b ih =>
    have hb : b.toNat < 256 := b.isLt
    rw [be2int_concat, List.length_append, List.length_singleton, pow_succ]
    omega

@[simp] theorem be2int_replicate_zero_append (k : Nat) (bs : List Byte) :
    be2int (List.replicate k 0#8 ++ bs) = be2int bs := by
  induction k with
  | zero => rfl
  | succ k ih => simp [List.replicate_succ, be2int_cons, ih]

theorem be2int_padLeft (bs : List Byte) (len : Nat) : be2int (padLeft bs len) = be2int bs :=
  be2int_replicate_zero_append _ bs

theorem length_padLeft {bs : List Byte} {len : Nat} (h : bs.length ≤ len) : (padLeft bs len).length = len := by
  simp [padLeft, h]

/-- The loop of `int2be` puts the bytes of `v` before `acc`, given as many passes as `v` has bits. -/
theorem be2int_int2beLoop {fuel v : Nat} (acc : List Byte) (h : v < 2 ^ fuel) :
    be2int (int2beLoop fuel v acc) = v * 256 ^ acc.length + be2int acc := by
  induction fuel generalizing v acc with
  | zero => simp_all [int2beLoop]
  | succ fuel ih =>
    unfold int2beLoop
    split
    · simp_all
    · have hfuel : v / 256 < 2 ^ fuel := by rw [pow_succ] at h; omega
      have hbyte : (BitVec.ofNat 8 (v % 256)).toNat = v % 256 := by simp
      rw [ih _ hfuel, be2int_cons, hbyte, List.length_cons, pow_succ]
      conv_rhs => rw [← Nat.div_add_mod v 256]
      ring

/-- The loop of `int2be` adds no byte that `v` does not need. -/
theorem length_int2beLoop_le {fuel v len : Nat} (acc : List Byte) (h : v < 256 ^ len) :
    (int2beLoop fuel v acc).length ≤ len + acc.length := by
  induction fuel generalizing v len acc with
  | zero => simp [int2beLoop]
  | succ fuel ih =>
    unfold int2beLoop
    split
    · omega
    · cases len with
      | zero => simp_all
      | succ len =>
        have hlen : v / 256 < 256 ^ len := by rw [pow_succ] at h; omega
        have := ih (BitVec.ofNat 8 (v % 256) :: acc) hlen
        rw [List.length_cons] at this
        omega

theorem int2be_of_pos {v : Nat} (h : 0 < v) : int2be v = int2beLoop (bitlen v) v [] := if_neg (by omega)

theorem be2int_int2be {v : Nat} (h : 0 < v) : be2int (int2be v) = v := by
  simp [int2be_of_pos h, be2int_int2beLoop [] (lt_two_pow_bitlen v)]

theorem length_int2be_le {v len : Nat} (h : 0 < v) (hv : v < 256 ^ len) : (int2be v).length ≤ len := by
  simpa [int2be_of_pos h] using length_int2beLoop_le [] hv

end Sys2Proof.Machine

open Sys2Proof.Machine

/-- Settles O55: a sequence of the same value is at least as long, since its value is below a power of 256. -/
theorem bytesOfIntegers : Obligations.BytesOfIntegers := fun v hv =>
  ⟨be2int_int2be hv,
    fun bs hbs => length_int2be_le hv (hbs ▸ be2int_lt bs),
    fun len hlen => ⟨by rw [be2int_padLeft, be2int_int2be hv], length_padLeft hlen⟩⟩
end

section
/-! PROOFS for spec/00_scope.md: what a host write answers (R6, R56, R58), and where a step stops. -/

namespace Sys2Proof.Machine

/-- A value fits `m` bits exactly when its magnitude is below `2^m` (spec R6, R12). -/
theorem fitsBits_some_iff (m : Nat) (v : Int) : fitsBits (some m) v = true ↔ v.natAbs < 2 ^ m := by
  simp [fitsBits, bitlen_le_iff]

/-- Outside BUSY the port carries every value that fits, at every index but CMD (spec R56). -/
theorem hostWriteFor_of_fits {m : Option Nat} {i : Index} {v : Int} {s : State} (hb : s.phase ≠ .busy)
    (hi : i ≠ indexCmd) (hv : fitsBits m v = true) : ∃ t, hostWriteFor m i v s = some (.next t) := by
  rw [hostWriteFor, if_neg hb, if_neg hi, if_neg (by simp [hv])]
  split <;> exact ⟨_, rfl⟩

/-- Outside BUSY a value that does not fit is refused, at every index but CMD (spec R6, log entry 7). -/
theorem hostWriteFor_of_not_fits {m : Option Nat} {i : Index} {v : Int} {s : State} (hb : s.phase ≠ .busy)
    (hi : i ≠ indexCmd) (hv : fitsBits m v = false) : hostWriteFor m i v s = some (.refused .writeTooWide) := by
  rw [hostWriteFor, if_neg hb, if_neg hi, if_pos hv]

/-- A write of a word's value to CMD outside BUSY is a HostIssue, which goes on (spec R58). -/
theorem hostWriteFor_cmd_of_word {m : Option Nat} {v : Int} {s : State} (hb : s.phase ≠ .busy)
    (hv : 0 ≤ v ∧ v < 2 ^ 32) : ∃ t, hostWriteFor m indexCmd v s = some (.next t) := by
  rw [hostWriteFor, if_neg hb, if_pos rfl, if_pos hv, hostIssue]
  split
  · exact ⟨_, rfl⟩
  · exact ⟨_, rfl⟩
  · exact ⟨_, rfl⟩
  · exact absurd (by assumption) hb

/-- A write of any other integer to CMD outside BUSY is the fault (log entry 8). -/
theorem hostWriteFor_cmd_of_not_word {m : Option Nat} {v : Int} {s : State} (hb : s.phase ≠ .busy)
    (hv : ¬(0 ≤ v ∧ v < 2 ^ 32)) : hostWriteFor m indexCmd v s = some (.fault .notACommandWord) := by
  rw [hostWriteFor, if_neg hb, if_pos rfl, if_neg hv]

/-- The four things a host write does: it is held, it goes on, or it is one of the two stops. -/
theorem hostWriteFor_cases (m : Option Nat) (i : Index) (v : Int) (s : State) :
    hostWriteFor m i v s = none ∨ (∃ t, hostWriteFor m i v s = some (.next t)) ∨
    (hostWriteFor m i v s = some (.fault .notACommandWord) ∧ s.phase ≠ .busy ∧ i = indexCmd ∧ ¬(0 ≤ v ∧ v < 2 ^ 32)) ∨
    (hostWriteFor m i v s = some (.refused .writeTooWide) ∧ s.phase ≠ .busy ∧ i ≠ indexCmd ∧ fitsBits m v = false) := by
  by_cases hb : s.phase = .busy
  · exact .inl (if_pos hb)
  by_cases hi : i = indexCmd
  · subst hi
    by_cases hv : 0 ≤ v ∧ v < 2 ^ 32
    · exact .inr (.inl (hostWriteFor_cmd_of_word hb hv))
    · exact .inr (.inr (.inl ⟨hostWriteFor_cmd_of_not_word hb hv, hb, rfl, hv⟩))
  cases hv : fitsBits m v with
  | true => exact .inr (.inl (hostWriteFor_of_fits hb hi hv))
  | false => exact .inr (.inr (.inr ⟨hostWriteFor_of_not_fits hb hi hv, hb, hi, rfl⟩))

/-- The host's next line is a write that the port does not carry, and `o` is how the model stops there (log entries 7, 8). -/
inductive PortStop (s : State) : Result → Prop where
  | notACommandWord (v : Int) (rest : List ScriptLine) (hl : s.host.script = .wr indexCmd v :: rest)
      (hb : s.phase ≠ .busy) (hv : ¬(0 ≤ v ∧ v < 2 ^ 32)) : PortStop s (.fault .notACommandWord)
  | writeTooWide (i : Index) (v : Int) (rest : List ScriptLine) (hl : s.host.script = .wr i v :: rest)
      (hb : s.phase ≠ .busy) (hi : i ≠ indexCmd) (hv : fitsBits Config.maxBits v = false) :
      PortStop s (.refused .writeTooWide)

/-- A move of the HOST goes on, or stops at a write that the port does not carry. -/
theorem hostStep_next_or_portStop {s : State} {o : Result} (h : hostStep s = some o) :
    (∃ t, o = .next t) ∨ PortStop s o := by
  unfold hostStep at h
  split at h
  · cases h
  rename_i l rest hl
  cases l with
  | rd i => obtain ⟨v, -, rfl⟩ := Option.map_eq_some_iff.mp h; exact .inl ⟨_, rfl⟩
  | wr i v =>
    have hw : hostWriteFor Config.maxBits i v (withScript rest s) = some o := h
    rcases hostWriteFor_cases Config.maxBits i v (withScript rest s) with he | ⟨t, he⟩ | ⟨he, hb, rfl, hv⟩ | ⟨he, hb, hi, hv⟩
      <;> rw [he] at hw <;> cases hw
    · exact .inl ⟨t, rfl⟩
    · exact .inr (.notACommandWord v rest hl hb hv)
    · exact .inr (.writeTooWide i v rest hl hb hi hv)
  | cmdw w => obtain ⟨t, -, rfl⟩ := Option.map_eq_some_iff.mp h; exact .inl ⟨_, rfl⟩
  | wait => cases h; exact .inl ⟨_, rfl⟩
  | rng w => cases h; exact .inl ⟨_, rfl⟩
  | reset => cases h; exact .inl ⟨_, rfl⟩

/-- `Complete` answers a next state (spec R78). -/
theorem complete_eq_next (s : State) : ∃ t, complete s = .next t := by
  rcases complete_ends s with ⟨t, ht, -⟩ | ⟨hs, -⟩
  · exact ⟨t, ht⟩
  · exact ⟨s, hs⟩

theorem agentMove_next_or_portStop (a : Agent) (s : State) :
    (∃ t, agentMove a s = .next t) ∨ PortStop s (agentMove a s) := by
  cases a with
  | host =>
    cases hs : hostStep s with
    | none => exact .inl ⟨s, by rw [agentMove, hs]; rfl⟩
    | some o =>
      have ho : agentMove .host s = o := by rw [agentMove, hs]; rfl
      rw [ho]
      exact hostStep_next_or_portStop hs
  | engine =>
    left
    cases hs : engineStep s with
    | none => exact ⟨s, by rw [agentMove, hs]; rfl⟩
    | some o =>
      obtain ⟨-, hc⟩ := engineStep_some.mp hs
      obtain ⟨t, ht⟩ := complete_eq_next s
      exact ⟨t, by rw [agentMove, hs, ← ht, hc]; rfl⟩

/-- A stop depends neither on the turns fixed nor on the turns taken. -/
theorem PortStop.of_sched {s : State} {c : Schedule} {o : Result} (h : PortStop { s with sched := c } o) :
    PortStop s o := by
  cases h with
  | notACommandWord v rest hl hb hv => exact .notACommandWord v rest hl hb hv
  | writeTooWide i v rest hl hb hi hv => exact .writeTooWide i v rest hl hb hi hv

/-- A step goes on, or stops at a host write that the port does not carry. -/
theorem step_next_or_portStop (s : State) : (∃ t, step s = .next t) ∨ PortStop s (step s) := by
  unfold step advance
  split
  · exact .inl ⟨_, rfl⟩
  split
  · obtain ⟨c, hc⟩ := takeTurn_eq s
    rw [hc]
    exact (agentMove_next_or_portStop _ _).imp_right .of_sched
  split
  · exact agentMove_next_or_portStop _ s
  · exact agentMove_next_or_portStop _ s

end Sys2Proof.Machine

open Sys2Proof.Machine

/-- Settles O10: only the HOST's move can stop, and only at a write of the port. -/
theorem stepStopsOnlyAtThePort : Obligations.StepStopsOnlyAtThePort := by
  intro s
  rcases step_next_or_portStop s with ⟨t, ht⟩ | hstop
  · rw [ht]; trivial
  · generalize step s = o at hstop
    cases hstop with
    | notACommandWord v rest hl hb hv => exact ⟨v, rest, hl, hb, hv⟩
    | writeTooWide i v rest hl hb hi hv => exact ⟨rfl, i, v, rest, hl, hb, hi, hv⟩

/-- Settles O42: a value fits `m` bits exactly when its magnitude is below `2^m`. -/
theorem overwideWriteIsRefused : Obligations.OverwideWriteIsRefused := by
  intro s m i v hb hi
  refine ⟨fun hv => ?_, fun hv => ?_, hostWriteFor_of_fits hb hi rfl⟩
  · have hwide : fitsBits (some m) v = false := by
      rw [← Bool.not_eq_true, fitsBits_some_iff]
      omega
    exact hostWriteFor_of_not_fits hb hi hwide
  · exact hostWriteFor_of_fits hb hi ((fitsBits_some_iff m v).mpr hv)
end

section
/-! PROOFS for spec/00_scope.md, R6: the bounds on the results of Egcd (R152), PowMod (R104) and Factor2 (R122). -/

namespace Sys2Proof.Machine

/-! ### Egcd: the coefficient is at most max(1, |B|), the last remainder at most max(|A|, |B|) -/

theorem mul_trem_nonneg (a b : Int) : 0 ≤ a * trem a b := by
  rcases trem_eq_zero_or_sign_eq a b with h | h
  · simp [h]
  · rw [← Int.sign_nonneg_iff, Int.sign_mul, h]
    exact mul_self_nonneg _

theorem tdiv_mul_mul_nonneg (a b : Int) : 0 ≤ tdiv a b * b * a := by
  have hq : tdiv a b * b * a = ((a.natAbs / b.natAbs : Nat) : Int) * (b.sign * b) * (a.sign * a) := by
    rw [tdiv_eq_sign_mul_natAbs]
    ring
  rw [hq, Int.sign_mul_self_eq_natAbs, Int.sign_mul_self_eq_natAbs]
  positivity

/-- The truncating remainder stands for the dividend in a sign condition. -/
theorem mul_trem_nonpos {c a b : Int} (h : c * a ≤ 0) : c * trem a b ≤ 0 := by
  have hsame := mul_trem_nonneg a b
  rcases lt_trichotomy a 0 with ha | rfl | ha
  · exact mul_nonpos_of_nonneg_of_nonpos (nonneg_of_mul_nonpos_left h ha) (nonpos_of_mul_nonneg_right hsame ha)
  · simp [trem, tdiv]
  · exact mul_nonpos_of_nonpos_of_nonneg (nonpos_of_mul_nonpos_left h ha) (nonneg_of_mul_nonneg_right hsame ha)

/-- Of two integers that are not of the same sign, neither is larger than their difference. -/
theorem natAbs_le_natAbs_sub {x y : Int} (h : x * y ≤ 0) : y.natAbs ≤ (x - y).natAbs := by
  rcases mul_nonpos_iff.mp h with ⟨hx, hy⟩ | ⟨hx, hy⟩ <;> omega

/-- A coefficient is bounded by the determinant, once the two terms of it have opposite signs. -/
theorem natAbs_le_of_det {x y a b : Int} (hb : b ≠ 0) (h : y * a * (x * b) ≤ 0) : x.natAbs ≤ (y * a - x * b).natAbs :=
  calc x.natAbs ≤ x.natAbs * b.natAbs := Nat.le_mul_of_pos_right _ (by omega)
    _ = (x * b).natAbs := (Int.natAbs_mul x b).symm
    _ ≤ (y * a - x * b).natAbs := natAbs_le_natAbs_sub h

/-- What the loop of Egcd keeps from the operands `A`, `B` (spec R152). The determinant of the coefficients and remainders keeps its
magnitude, and its two terms have opposite signs, so that neither exceeds it. -/
structure EgcdBounds (A B x0 x1 a b : Int) : Prop where
  det : (x1 * a - x0 * b).natAbs = B.natAbs
  signs : x0 * x1 * b * a ≤ 0
  coeff : x0.natAbs ≤ max 1 B.natAbs
  coeffNext : x1.natAbs ≤ max 1 B.natAbs
  rem : a.natAbs ≤ max A.natAbs B.natAbs
  remNext : b.natAbs ≤ max A.natAbs B.natAbs

theorem egcdBounds_init (A B : Int) : EgcdBounds A B 1 0 A B := by
  constructor <;> simp

/-- One pass of the loop keeps the bounds: the determinant only changes its sign, and the new remainder has the sign of the old
dividend. -/
theorem EgcdBounds.step {A B x0 x1 a b : Int} (h : EgcdBounds A B x0 x1 a b) (hb : b ≠ 0) :
    EgcdBounds A B x1 (x0 - tdiv a b * x1) b (trem a b) := by
  obtain ⟨hdet, hsigns, -, hcoeffNext, -, hremNext⟩ := h
  have hdet' : x1 * trem a b - (x0 - tdiv a b * x1) * b = x1 * a - x0 * b := by
    simp only [trem]
    ring
  have hsigns' : x1 * (x0 - tdiv a b * x1) * b * trem a b ≤ 0 := by
    apply mul_trem_nonpos
    have hsq := mul_nonneg (mul_self_nonneg x1) (tdiv_mul_mul_nonneg a b)
    linarith
  have hcoeff : (x0 - tdiv a b * x1).natAbs ≤ B.natAbs := by
    rw [← hdet, ← hdet']
    exact natAbs_le_of_det hb (by linarith)
  constructor
  case det => rw [← hdet, ← hdet', ← Int.natAbs_neg, neg_sub]
  case signs => linarith
  case coeff => exact hcoeffNext
  case coeffNext => exact hcoeff.trans (le_max_right _ _)
  case rem => exact hremNext
  case remNext => exact (trem_natAbs_lt a b hb).le.trans hremNext

theorem EgcdBounds.natAbs_egcdLoop_le {fuel : Nat} {A B x0 x1 a b : Int} (h : EgcdBounds A B x0 x1 a b) :
    (egcdLoop fuel x0 x1 a b).1.natAbs ≤ max 1 B.natAbs ∧
    (egcdLoop fuel x0 x1 a b).2.natAbs ≤ max A.natAbs B.natAbs := by
  induction fuel generalizing x0 x1 a b with
  | zero => exact ⟨h.coeff, h.rem⟩
  | succ fuel ih =>
    unfold egcdLoop
    split
    · exact ⟨h.coeff, h.rem⟩
    · exact ih (h.step (by assumption))

/-- The coefficient that Egcd returns is at most `max(1, |b|)` (spec R6). -/
theorem natAbs_egcd_coeff_le (a b : Int) : (egcd a b).1.natAbs ≤ max 1 b.natAbs :=
  (egcdBounds_init a b).natAbs_egcdLoop_le.1

/-- The last remainder that Egcd returns is at most `max(|a|, |b|)` (spec R6). -/
theorem natAbs_egcd_rem_le (a b : Int) : (egcd a b).2.natAbs ≤ max a.natAbs b.natAbs :=
  (egcdBounds_init a b).natAbs_egcdLoop_le.2

/-- MODINV's result is at most the modulus: a negative coefficient is above `-n` or becomes small by adding `n` (spec R154). -/
theorem natAbs_modinvResult_le {x g n : Int} (h : 1 ≤ n) (hx : x.natAbs ≤ max 1 n.natAbs) :
    (modinvResult x g n).natAbs ≤ n.natAbs := by
  unfold modinvResult
  split
  · simp
  · split <;> omega

/-! ### PowMod: the result is a residue -/

theorem mulMod_mem_Ico (x y : Int) {n : Int} (h : 1 ≤ n) : mulMod x y n ∈ Set.Ico 0 n :=
  ⟨modNN_nonneg (x * y) n h, modNN_lt (x * y) n h⟩

theorem powLoop_mem_Ico {fuel e : Nat} {r s n : Int} (h : 1 ≤ n) (hr : r ∈ Set.Ico 0 n) :
    powLoop fuel r s e n ∈ Set.Ico 0 n := by
  induction fuel generalizing r s e with
  | zero => exact hr
  | succ fuel ih =>
    unfold powLoop
    split
    · exact hr
    · apply ih
      split
      · exact mulMod_mem_Ico r s h
      · exact hr

/-- PowMod answers a value of `[0, n)`, so of no larger magnitude than the modulus (spec R104). -/
theorem natAbs_powMod_le (a : Int) (e : Nat) {n : Int} (h : 1 ≤ n) : (powMod a e n).natAbs ≤ n.natAbs := by
  obtain ⟨hlo, hhi⟩ : powMod a e n ∈ Set.Ico 0 n := powLoop_mem_Ico h ⟨modNN_nonneg 1 n h, modNN_lt 1 n h⟩
  omega

/-! ### Factor2: both factors are at most m -/

theorem factor2Loop_prod (fuel q k : Nat) :
    (factor2Loop fuel q k).1 * 2 ^ (factor2Loop fuel q k).2 = q * 2 ^ k := by
  induction fuel generalizing q k with
  | zero => rfl
  | succ fuel ih =>
    unfold factor2Loop
    split
    · rename_i heven
      rw [ih, pow_succ]
      conv_rhs => rw [← Nat.div_mul_cancel (Nat.dvd_of_mod_eq_zero heven)]
      ring
    · rfl

/-- Factor2 splits its operand into a factor and a power of two (spec R122). -/
theorem factor2_prod (m : Nat) : (factor2 m).1 * 2 ^ (factor2 m).2 = m := by
  simpa [factor2] using factor2Loop_prod (bitlen m) m 0

theorem factor2_odd_le (m : Nat) : (factor2 m).1 ≤ m :=
  calc (factor2 m).1 ≤ (factor2 m).1 * 2 ^ (factor2 m).2 := Nat.le_mul_of_pos_right _ (by positivity)
    _ = m := factor2_prod m

theorem factor2_exponent_le {m : Nat} (h : 1 ≤ m) : (factor2 m).2 ≤ m := by
  have hpos : 0 < (factor2 m).1 := by
    by_contra hzero
    have hprod := factor2_prod m
    rw [Nat.eq_zero_of_not_pos hzero, zero_mul] at hprod
    omega
  calc (factor2 m).2 ≤ 2 ^ (factor2 m).2 := Nat.lt_two_pow_self.le
    _ ≤ (factor2 m).1 * 2 ^ (factor2 m).2 := Nat.le_mul_of_pos_left _ hpos
    _ = m := factor2_prod m

end Sys2Proof.Machine
end

section
/-! PROOFS for spec/00_scope.md, R6: no step makes an integer register wider than MAXBITS. -/

namespace Sys2Proof.Machine

/-! ### Fitting the registers -/

theorem fitsBits_of_natAbs_le {m : Option Nat} {v w : Int} (hw : fitsBits m w = true) (h : v.natAbs ≤ w.natAbs) :
    fitsBits m v = true := by
  cases m with
  | none => rfl
  | some bits =>
    rw [fitsBits_some_iff] at *
    omega

/-- What is bounded by the larger of two values fits where both do. -/
theorem fitsBits_of_natAbs_le_max {m : Option Nat} {v w w' : Int} (hw : fitsBits m w = true) (hw' : fitsBits m w' = true)
    (h : v.natAbs ≤ max w.natAbs w'.natAbs) : fitsBits m v = true :=
  (le_max_iff.mp h).elim (fitsBits_of_natAbs_le hw) (fitsBits_of_natAbs_le hw')

/-- A value below the next power of two after `n` fits where `n` does. -/
theorem fitsBits_of_lt_two_pow_bitlen {m : Option Nat} {w : Nat} {n : Int} (hn : fitsBits m n = true)
    (h : w < 2 ^ bitlen n.toNat) : fitsBits m w = true := by
  cases m with
  | none => rfl
  | some bits =>
    rw [fitsBits_some_iff] at *
    have hbits : bitlen n.toNat ≤ bits := by
      rw [bitlen_le_iff]
      omega
    calc (w : Int).natAbs = w := Int.natAbs_natCast w
      _ < 2 ^ bitlen n.toNat := h
      _ ≤ 2 ^ bits := Nat.pow_le_pow_right (by decide) hbits

/-- A register holds at least one magnitude bit (log entry 7). -/
theorem fitsBits_maxBits_one : fitsBits Config.maxBits 1 = true := by
  unfold Config.maxBits
  cases Config.maxBitsLess1 with
  | none => rfl
  | some m => exact (fitsBits_some_iff (m + 1) 1).mpr (Nat.one_lt_two_pow (by omega))

/-! ### The updates of the state -/

theorem State.RegistersFit.write {s : State} (h : s.RegistersFit) (r : Reg) {v : Int}
    (hv : fitsBits Config.maxBits v = true) : (s.write r v).RegistersFit := by
  intro r'
  by_cases hr : r' = r
  · subst hr
    rw [read_write_same]
    exact hv
  · rw [read_write_other s r r' v hr]
    exact h r'

theorem State.RegistersFit.of_read_eq {s t : State} (h : s.RegistersFit) (ht : ∀ r, t.read r = s.read r) :
    t.RegistersFit := fun r => by rw [ht r]; exact h r

/-- Nothing but the integer registers matters. -/
theorem State.RegistersFit.frame {s : State} (h : s.RegistersFit) {p : Phase} {v m pin : Bool} {c : Cause} {w : Word}
    {ho : HostAgent} {g : RngAgent} {sc : Schedule} :
    ({ s with
        phase := p, verdict := v, noinv := m, cause := c, cmdw := w, host := ho, rng := g, sched := sc
        resetPin := pin } : State).RegistersFit :=
  h.of_read_eq fun r => by cases r <;> rfl

theorem registersFit_resetEvent (s : State) : (resetEvent s).RegistersFit := fun r => by
  rw [resetEvent_read]
  exact fitsBits_of_natAbs_le fitsBits_maxBits_one (by simp)

/-! ### The commands -/

/-- Where the answer is a next state, its registers fit. -/
def FitsAfter (o : Result) : Prop := ∀ t, o = .next t → t.RegistersFit

variable {s : State}

theorem fitsAfter_next (h : s.RegistersFit) : FitsAfter (.next s) := fun _ ht => by cases ht; exact h

theorem fitsAfter_finish (h : s.RegistersFit) : FitsAfter (finish s) :=
  fitsAfter_next h.frame

theorem fitsAfter_raise (c : Cause) (h : s.RegistersFit) : FitsAfter (raise c s) :=
  fitsAfter_next h.frame

theorem fitsAfter_checkModulus {body : Result} (h : s.RegistersFit) (hbody : 1 ≤ s.n → FitsAfter body) :
    FitsAfter (checkModulus s body) := by
  by_cases hn : s.n < 1
  · rw [checkModulus_fail s body hn]
    exact fitsAfter_raise _ h
  · rw [checkModulus_pass s body (by omega)]
    exact hbody (by omega)

theorem fitsAfter_checkExponent (e : Int) {body : Result} (h : s.RegistersFit) (hbody : FitsAfter body) :
    FitsAfter (checkExponent e s body) := by
  by_cases he : e < 0
  · rw [checkExponent_fail e s body he]
    exact fitsAfter_raise _ h
  · rw [checkExponent_pass e s body (by omega)]
    exact hbody

theorem fitsAfter_checkRange {body : Result} (h : s.RegistersFit) (hbody : FitsAfter body) :
    FitsAfter (checkRange s body) := by
  by_cases ha : s.a < 0 ∨ s.n ≤ s.a
  · rw [checkRange_fail s body ha]
    exact fitsAfter_raise _ h
  · rw [checkRange_pass s body (by omega) (by omega)]
    exact hbody

theorem fitsAfter_checkCandidate {body : Result} (h : s.RegistersFit) (hbody : 2 ≤ s.n → FitsAfter body) :
    FitsAfter (checkCandidate s body) := by
  by_cases hn : s.n < 2
  · rw [checkCandidate_fail s body hn]
    exact fitsAfter_raise _ h
  · rw [checkCandidate_pass s body (by omega)]
    exact hbody (by omega)

/-- A result no larger than the modulus goes to R0. -/
theorem fitsAfter_residue (h : s.RegistersFit) {v : Int} (hv : v.natAbs ≤ s.n.natAbs) : FitsAfter (finish (s.write .r0 v)) :=
  fitsAfter_finish (h.write .r0 (fitsBits_of_natAbs_le (h .n) hv))

theorem fitsAfter_setVerdict (v : Bool) (h : s.RegistersFit) : FitsAfter (finish (setVerdict v s)) :=
  fitsAfter_finish (h.of_read_eq (setVerdict_read s · v))

theorem fitsAfter_execMulmod (h : s.RegistersFit) : FitsAfter (execMulmod s) :=
  fitsAfter_checkModulus h fun hn => fitsAfter_residue h (by
    obtain ⟨hlo, hhi⟩ := mulMod_mem_Ico s.a s.b hn
    omega)

theorem fitsAfter_execModexp (h : s.RegistersFit) : FitsAfter (execModexp s) :=
  fitsAfter_checkModulus h fun hn => fitsAfter_checkExponent _ h (fitsAfter_residue h (natAbs_powMod_le _ _ hn))

theorem fitsAfter_execFinv (h : s.RegistersFit) : FitsAfter (execFinv s) :=
  fitsAfter_checkModulus h fun hn => fitsAfter_checkExponent _ h (fitsAfter_residue h (natAbs_powMod_le _ _ hn))

theorem fitsAfter_rsaTransform (h : s.RegistersFit) : FitsAfter (rsaTransform s) :=
  fitsAfter_checkModulus h fun hn => fitsAfter_checkExponent _ h
    (fitsAfter_checkRange h (fitsAfter_residue h (natAbs_powMod_le _ _ hn)))

theorem fitsAfter_execFermat (h : s.RegistersFit) : FitsAfter (execFermat s) :=
  fitsAfter_checkModulus h fun _ => fitsAfter_setVerdict _ h

theorem fitsAfter_execMr (h : s.RegistersFit) : FitsAfter (execMr s) :=
  fitsAfter_checkModulus h fun _ => fitsAfter_checkExponent _ h (fitsAfter_setVerdict _ h)

theorem fitsAfter_execEgcd (h : s.RegistersFit) : FitsAfter (execEgcd s) := by
  have hx : fitsBits Config.maxBits (egcd s.a s.b).1 = true :=
    fitsBits_of_natAbs_le_max fitsBits_maxBits_one (h .b) (natAbs_egcd_coeff_le s.a s.b)
  have hg : fitsBits Config.maxBits (egcd s.a s.b).2 = true :=
    fitsBits_of_natAbs_le_max (h .a) (h .b) (natAbs_egcd_rem_le s.a s.b)
  exact fitsAfter_finish ((h.write .r0 hx).write .r1 hg)

theorem fitsAfter_execModinv (h : s.RegistersFit) : FitsAfter (execModinv s) := by
  apply fitsAfter_checkModulus h
  intro hn
  have hx : fitsBits Config.maxBits (modinvResult (egcd s.a s.n).1 (egcd s.a s.n).2 s.n) = true :=
    fitsBits_of_natAbs_le (h .n) (natAbs_modinvResult_le hn (natAbs_egcd_coeff_le s.a s.n))
  have hg : fitsBits Config.maxBits (egcd s.a s.n).2 = true :=
    fitsBits_of_natAbs_le_max (h .a) (h .n) (natAbs_egcd_rem_le s.a s.n)
  exact fitsAfter_finish (((h.write .r0 hx).write .r1 hg).of_read_eq (setNoinv_read _ · _))

/-- PRIMETEST's witness has the bits of N, and both factors of N - 1 are below N (spec R127). -/
theorem registersFit_primetestWith {w : Nat} (h : s.RegistersFit) (hn : 2 ≤ s.n) (hw : w < 2 ^ bitlen s.n.toNat) :
    (primetestWith w s).RegistersFit := by
  have hm : (s.n - 1).toNat ≤ s.n.natAbs := by omega
  have hq : fitsBits Config.maxBits (factor2 (s.n - 1).toNat).1 = true :=
    fitsBits_of_natAbs_le (h .n) ((factor2_odd_le _).trans hm)
  have hk : fitsBits Config.maxBits (factor2 (s.n - 1).toNat).2 = true :=
    fitsBits_of_natAbs_le (h .n) ((factor2_exponent_le (by omega)).trans hm)
  have hw' : fitsBits Config.maxBits w = true := fitsBits_of_lt_two_pow_bitlen (h .n) hw
  exact (((h.write .r0 hw').write .r1 hq).write .r2 hk).of_read_eq (setVerdict_read _ · _)

theorem fitsAfter_execPrimetest (h : s.RegistersFit) : FitsAfter (execPrimetest s) := by
  refine fitsAfter_checkModulus h fun _ => fitsAfter_checkCandidate h fun hn => ?_
  split
  · exact fitsAfter_next h
  · rename_i w g hdraw
    have hrng : ({ s with rng := g } : State).RegistersFit := h.frame
    exact fitsAfter_finish (registersFit_primetestWith hrng hn (rngDraw_lt hdraw))

theorem fitsAfter_exec (i : Instr) (h : s.RegistersFit) : FitsAfter (exec i s) := by
  cases i with
  | mulmod => exact fitsAfter_execMulmod h
  | modexp => exact fitsAfter_execModexp h
  | egcd => exact fitsAfter_execEgcd h
  | modinv => exact fitsAfter_execModinv h
  | finv => exact fitsAfter_execFinv h
  | fermat => exact fitsAfter_execFermat h
  | mr => exact fitsAfter_execMr h
  | primetest => exact fitsAfter_execPrimetest h
  | rsaenc => exact fitsAfter_rsaTransform h
  | rsadec => exact fitsAfter_rsaTransform h

/-! ### The step -/

theorem fitsAfter_complete (h : s.RegistersFit) : FitsAfter (complete s) := by
  rcases complete_cases s with ⟨i, -, he⟩ | ⟨-, he⟩
  · rw [he]
    exact fitsAfter_exec i h
  · rw [he]
    exact fitsAfter_raise .errOpcode h

theorem registersFit_of_hostIssue {w : Word} {t : State} (h : s.RegistersFit) (ht : hostIssue w s = some t) :
    t.RegistersFit := by
  rcases hostIssue_some ht with ⟨-, rfl⟩ | ⟨-, rfl⟩
  · exact h.frame
  · exact h

theorem registersFit_of_hostStep {t : State} (h : s.RegistersFit) (ht : hostStep s = some (.next t)) :
    t.RegistersFit := by
  have hscript (ls : List ScriptLine) : (withScript ls s).RegistersFit := h.of_read_eq (withScript_read s · ls)
  obtain ⟨l, rest, -, he | ⟨w, hi⟩ | ⟨i, v, r, -, -, -, -, hv, rfl⟩ | ⟨w, -, rfl⟩ | ⟨-, rfl⟩⟩ := hostStep_next_cases ht
  · rw [he]
    exact h.frame
  · exact registersFit_of_hostIssue (hscript rest) hi
  · exact (hscript rest).write r hv
  · exact (hscript rest).of_read_eq (queueAnswer_read _ · w)
  · exact registersFit_resetEvent _

end Sys2Proof.Machine

open Sys2Proof.Machine

/-- Settles O14: a step is a reset, a pause, a move of the HOST or a command, and none of them overflows a register. -/
theorem registersFitInvariant : Obligations.RegistersFitInvariant := by
  intro s t h hstep
  rcases step_next_cases hstep with ⟨-, rfl⟩ | ⟨u, c, rfl, hmove⟩
  · exact registersFit_resetEvent s
  have hu : ({ s with sched := c } : State).RegistersFit := h.frame
  rcases hmove with rfl | hhost | ⟨-, hcomplete⟩
  · exact hu
  · exact registersFit_of_hostStep hu hhost
  · exact fitsAfter_complete hu t hcomplete
end

section
/-! PROOFS for spec/10_state.md: the moves of PHASE and CAUSE (R24, R28). -/

namespace Sys2Proof.Machine

/-- What a step does to PHASE and CAUSE from `s` to `t` (spec R24, R28, R244, R280). -/
inductive ControlMove (s t : State) : Prop where
  | stay (hphase : t.phase = s.phase) (hcause : t.cause = s.cause)
  | issue (hfrom : s.phase = .idle ∨ s.phase = .done) (hphase : t.phase = .busy) (hcause : t.cause = s.cause)
  | finish (hfrom : s.phase = .busy) (hphase : t.phase = .done) (hcause : t.cause = s.cause)
  | fault (hfrom : s.phase = .busy) (hphase : t.phase = .fault) (hcause : t.cause ≠ .noFault)
  | reset (hnext : s.ResetNext) (hphase : t.phase = .idle) (hcause : t.cause = .noFault)

theorem controlMove_of_hostStep {s t : State} (h : hostStep s = some (.next t)) : ControlMove s t := by
  obtain ⟨l, rest, hl, he | ⟨w, hi⟩ | ⟨i, v, r, -, -, -, -, -, rfl⟩ | ⟨w, -, rfl⟩ | ⟨rfl, rfl⟩⟩ := hostStep_next_cases h
  · rw [he]
    exact .stay rfl rfl
  · rcases hostIssue_some hi with ⟨hfrom, rfl⟩ | ⟨-, rfl⟩
    · exact .issue hfrom rfl rfl
    · exact .stay rfl rfl
  · exact .stay (write_phase _ r v) (write_cause _ r v)
  · exact .stay rfl rfl
  · exact .reset (.inr (by rw [hl]; rfl)) rfl rfl

theorem controlMove_of_exec {i : Instr} {s t : State} (hb : s.phase = .busy) (h : exec i s = .next t) :
    ControlMove s t := by
  rcases exec_next_cases h with ⟨c, hc, rfl⟩ | ⟨x, y, z, v, m, g, rfl⟩ | ⟨-, rfl⟩
  · exact .fault hb rfl hc
  · exact .finish hb rfl rfl
  · exact .stay rfl rfl

theorem controlMove_of_complete {s t : State} (hb : s.phase = .busy) (h : complete s = .next t) : ControlMove s t := by
  rcases complete_cases s with ⟨i, -, he⟩ | ⟨-, he⟩
  · exact controlMove_of_exec hb (he ▸ h)
  · rw [he] at h
    cases h
    exact .fault hb rfl (by simp)

/-- Whose turn it is has no part in a move of PHASE and CAUSE. -/
theorem ControlMove.of_sched {s t : State} {c : Schedule} (h : ControlMove { s with sched := c } t) : ControlMove s t := by
  cases h with
  | stay hphase hcause => exact .stay hphase hcause
  | issue hfrom hphase hcause => exact .issue hfrom hphase hcause
  | finish hfrom hphase hcause => exact .finish hfrom hphase hcause
  | fault hfrom hphase hcause => exact .fault hfrom hphase hcause
  | reset hnext hphase hcause => exact .reset hnext hphase hcause

theorem controlMove_of_step {s t : State} (h : step s = .next t) : ControlMove s t := by
  rcases step_next_cases h with ⟨hpin, rfl⟩ | ⟨u, c, rfl, hmove⟩
  · exact .reset (.inl hpin) rfl rfl
  · rcases hmove with rfl | hhost | ⟨hb, hcomplete⟩
    · exact .stay rfl rfl
    · exact (controlMove_of_hostStep hhost).of_sched
    · exact (controlMove_of_complete hb hcomplete).of_sched

end Sys2Proof.Machine

open Sys2Proof.Machine

/-- Settles O12: the only move into FAULT sets CAUSE to a fault, and the only move that clears CAUSE is the reset to IDLE. -/
theorem causeAgreesWithPhaseInvariant : Obligations.CauseAgreesWithPhaseInvariant := by
  intro s t h hstep
  cases controlMove_of_step hstep with
  | stay hphase hcause => rwa [State.CauseAgrees, hphase, hcause]
  | issue hfrom hphase hcause =>
    have hfault : s.phase ≠ .fault := by rcases hfrom with hp | hp <;> simp [hp]
    simpa [State.CauseAgrees, hphase, hcause] using h.mpr hfault
  | finish hfrom hphase hcause =>
    have hfault : s.phase ≠ .fault := by simp [hfrom]
    simpa [State.CauseAgrees, hphase, hcause] using h.mpr hfault
  | fault hfrom hphase hcause => simpa [State.CauseAgrees, hphase] using hcause
  | reset hnext hphase hcause => simp [State.CauseAgrees, hphase, hcause]

/-- Settles O7: each move of PHASE is listed in spec R24. -/
theorem phaseTransitionsAreListed : Obligations.PhaseTransitionsAreListed := by
  intro s t hstep
  cases controlMove_of_step hstep with
  | stay hphase => exact .inl hphase
  | issue hfrom hphase => exact .inr (.inl (by rcases hfrom with hp | hp <;> simp [phaseChange, hp, hphase]))
  | finish hfrom hphase => exact .inr (.inl (by simp [phaseChange, hfrom, hphase]))
  | fault hfrom hphase => exact .inr (.inl (by simp [phaseChange, hfrom, hphase]))
  | reset hnext hphase => exact .inr (.inr ⟨hphase, hnext⟩)

/-- Settles O13: reset clears both (spec R32). -/
theorem causeAgreesAtReset : Obligations.CauseAgreesAtReset := by
  simp [Obligations.CauseAgreesAtReset, State.CauseAgrees, State.reset]

/-- Settles O15: every register is 0 after a reset (spec R32), and 0 fits. -/
theorem registersFitAtReset : Obligations.RegistersFitAtReset := registersFit_resetEvent State.reset
end

section
/-! PROOFS for spec/10_state.md: what a command leaves unchanged (R21, R22, R26, R27, R75). -/

namespace Sys2Proof.Machine

/-! ### A command is its checks, then its results -/

/-- A command whose first failed check is `c`: the fault, or the rest of the command where no check failed (spec R244, R246). -/
def guarded (c : Cause) (s : State) (body : Result) : Result := if c = .noFault then body else raise c s

@[simp] theorem guarded_noFault (s : State) (body : Result) : guarded .noFault s body = body := rfl

theorem guarded_of_ne {c : Cause} (s : State) (body : Result) (h : c ≠ .noFault) : guarded c s body = raise c s := if_neg h

section

variable (c : Cause) (s : State) (body : Result)

theorem checkModulus_guarded :
    checkModulus s (guarded c s body) = guarded (if s.n < 1 then .errModulus else c) s body := by
  unfold checkModulus
  split <;> rfl

theorem checkExponent_guarded (e : Int) :
    checkExponent e s (guarded c s body) = guarded (if e < 0 then .errExponent else c) s body := by
  unfold checkExponent
  split <;> rfl

theorem checkRange_guarded :
    checkRange s (guarded c s body) = guarded (if s.a < 0 ∨ s.n ≤ s.a then .errRange else c) s body := by
  unfold checkRange
  split <;> rfl

theorem checkCandidate_guarded :
    checkCandidate s (guarded c s body) = guarded (if s.n < 2 then .errCandidate else c) s body := by
  unfold checkCandidate
  split <;> rfl

end

/-- Behind CheckModulus, a bound of 2 on N fails for N = 1 only. -/
theorem modulus_check_then_two (s : State) (c : Cause) :
    (if s.n < 1 then .errModulus else if s.n < 2 then c else .noFault) =
      (if s.n < 1 then .errModulus else if s.n = 1 then c else .noFault : Cause) := by
  split_ifs <;> first | rfl | omega

/-- What a command whose checks all pass writes before PHASE becomes DONE; `none` where PRIMETEST gets no draw (spec R75, R285). -/
def results (i : Instr) (s : State) : Option State :=
  match i with
  | .mulmod => some (s.write .r0 (mulMod s.a s.b s.n))
  | .modexp | .rsaenc | .rsadec => some (s.write .r0 (powMod s.a s.b.toNat s.n))
  | .egcd => some ((s.write .r0 (egcd s.a s.b).1).write .r1 (egcd s.a s.b).2)
  | .modinv =>
    some (setNoinv ((egcd s.a s.n).2 != 1)
      ((s.write .r0 (modinvResult (egcd s.a s.n).1 (egcd s.a s.n).2 s.n)).write .r1 (egcd s.a s.n).2))
  | .finv => some (s.write .r0 (powMod s.a (s.n - 2).toNat s.n))
  | .fermat => some (setVerdict (powMod s.a (s.n - 1).toNat s.n == 1) s)
  | .mr => some (setVerdict (millerRabin s.n s.b.toNat s.k s.a) s)
  | .primetest => (rngDraw (bitlen s.n.toNat) s.rng).map fun p => primetestWith p.1 { s with rng := p.2 }

/-- The end of a command whose checks all pass (spec R78): DONE with its results, or no change while it waits for a draw. -/
def completion (i : Instr) (s : State) : Result := (results i s).elim (.next s) finish

/-- Every command is its checks in the order of spec R246, then its completion. -/
theorem exec_eq_guarded (i : Instr) (s : State) : exec i s = guarded (firstFault i s) s (completion i s) := by
  have modulus := fun c => checkModulus_guarded c s (completion i s)
  have exponent := fun c e => checkExponent_guarded c s (completion i s) e
  cases i with
  | egcd => rfl
  | mulmod | modinv | fermat => exact modulus .noFault
  | modexp | mr =>
    unfold firstFault
    rw [← modulus, ← exponent]
    rfl
  | finv =>
    rw [firstFault, ← modulus_check_then_two]
    simp only [← sub_neg (a := s.n) (b := 2)]
    rw [← modulus, ← exponent]
    rfl
  | primetest =>
    rw [firstFault, ← modulus_check_then_two, ← modulus, ← checkCandidate_guarded]
    simp only [exec, execPrimetest, completion, results]
    cases rngDraw (bitlen s.n.toNat) s.rng <;> rfl
  | rsaenc | rsadec =>
    unfold firstFault
    rw [← modulus, ← exponent, ← checkRange_guarded]
    rfl

/-! ### The frame of a command -/

/-- From `s` to `t`, a command `i` has written only the registers and flags of its row of spec R75, PHASE, CAUSE, and, if it is
PRIMETEST, the RNG agent. -/
structure CommandFrame (i : Instr) (s t : State) : Prop where
  regs : ∀ r ∉ writesRegs i, t.read r = s.read r
  verdict : writesVerdict i = false → t.verdict = s.verdict
  noinv : writesNoinv i = false → t.noinv = s.noinv
  cmdw : t.cmdw = s.cmdw
  host : t.host = s.host
  sched : t.sched = s.sched
  resetPin : t.resetPin = s.resetPin
  rng : i ≠ .primetest → t.rng = s.rng

namespace CommandFrame

variable {i : Instr} {s t : State}

theorem refl (i : Instr) (s : State) : CommandFrame i s s := by constructor <;> simp

/-- PHASE and CAUSE are outside the frame. -/
theorem ending (h : CommandFrame i s t) (p : Phase) (c : Cause) : CommandFrame i s { t with phase := p, cause := c } :=
  { h with regs := fun r hr => (by cases r <;> rfl : _ = t.read r).trans (h.regs r hr) }

theorem write (h : CommandFrame i s t) {r : Reg} (hr : r ∈ writesRegs i) (v : Int) : CommandFrame i s (t.write r v) where
  regs r' hr' := by
    have hne : r' ≠ r := fun he => hr' (he ▸ hr)
    rw [read_write_other t r r' v hne, h.regs r' hr']
  verdict hi := (write_verdict t r v).trans (h.verdict hi)
  noinv hi := (write_noinv t r v).trans (h.noinv hi)
  cmdw := (write_cmdw t r v).trans h.cmdw
  host := (write_host t r v).trans h.host
  sched := (write_sched t r v).trans h.sched
  resetPin := (write_resetPin t r v).trans h.resetPin
  rng hi := (write_rng t r v).trans (h.rng hi)

theorem setVerdict (h : CommandFrame i s t) (hi : writesVerdict i = true) (b : Bool) :
    CommandFrame i s (setVerdict b t) :=
  { h with
    regs := fun r hr => (setVerdict_read t r b).trans (h.regs r hr)
    verdict := fun hn => by simp [hi] at hn }

theorem setNoinv (h : CommandFrame i s t) (hi : writesNoinv i = true) (b : Bool) :
    CommandFrame i s (setNoinv b t) :=
  { h with
    regs := fun r hr => (setNoinv_read t r b).trans (h.regs r hr)
    noinv := fun hn => by simp [hi] at hn }

theorem draw (s : State) (g : RngAgent) : CommandFrame .primetest s { s with rng := g } :=
  { refl .primetest s with
    regs := fun r _ => by cases r <;> rfl
    rng := fun hi => absurd rfl hi }

/-- No command's row of spec R75 names an operand register (spec R21). -/
theorem operand (h : CommandFrame i s t) {r : Reg} (hr : hostWritable r = true) : t.read r = s.read r := by
  apply h.regs
  cases i <;> cases r <;> simp_all [writesRegs, hostWritable]

end CommandFrame

/-- A command's results are those of its row (spec R75). -/
theorem commandFrame_results {i : Instr} {s u : State} (h : results i s = some u) : CommandFrame i s u := by
  have start := CommandFrame.refl i s
  cases i with
  | primetest =>
    obtain ⟨⟨w, g⟩, -, rfl⟩ := Option.map_eq_some_iff.mp h
    exact ((((CommandFrame.draw s g).write (by decide) _).write (by decide) _).write (by decide) _).setVerdict rfl _
  | egcd => cases h; exact (start.write (by decide) _).write (by decide) _
  | modinv => cases h; exact ((start.write (by decide) _).write (by decide) _).setNoinv rfl _
  | fermat | mr => cases h; exact start.setVerdict rfl _
  | mulmod | modexp | finv | rsaenc | rsadec => cases h; exact start.write (by decide) _

theorem commandFrame_completion {i : Instr} {s t : State} (h : completion i s = .next t) : CommandFrame i s t := by
  unfold completion at h
  cases hu : results i s with
  | none => rw [hu] at h; cases h; exact .refl i s
  | some u => rw [hu] at h; cases h; exact (commandFrame_results hu).ending _ _

/-- Fault entry changes CAUSE and PHASE alone (spec R244). -/
theorem exec_of_firstFault {i : Instr} {s : State} (h : firstFault i s ≠ .noFault) :
    exec i s = .next { s with cause := firstFault i s, phase := .fault } := by
  rw [exec_eq_guarded, guarded_of_ne _ _ h, raise_eq]

theorem commandFrame_exec {i : Instr} {s t : State} (h : exec i s = .next t) : CommandFrame i s t := by
  by_cases hf : firstFault i s = .noFault
  · rw [exec_eq_guarded, hf, guarded_noFault] at h
    exact commandFrame_completion h
  · rw [exec_of_firstFault hf] at h
    cases h
    exact (CommandFrame.refl i s).ending _ _

end Sys2Proof.Machine

open Sys2Proof.Machine

/-- Settles O37: A, B, N and K are in no command's row, and the agents are in the frame of all. -/
theorem noCommandWritesOperands : Obligations.NoCommandWritesOperands := by
  intro i s t h
  have frame := commandFrame_exec h
  have operand (r : Reg) (hr : hostWritable r = true) : t.read r = s.read r := frame.operand hr
  exact ⟨operand .a rfl, operand .b rfl, operand .n rfl, operand .k rfl, frame.cmdw, frame.host, frame.sched,
    frame.resetPin, frame.rng⟩

/-- Settles O38: outside its row a command is framed, and one whose check fails only enters FAULT. -/
theorem unnamedResultsKeepTheirValue : Obligations.UnnamedResultsKeepTheirValue := by
  intro i s t h
  by_cases hf : firstFault i s = .noFault
  · have frame := commandFrame_exec h
    simp only [hf, ne_eq, not_true_eq_false, or_false]
    exact ⟨frame.regs, frame.verdict, frame.noinv⟩
  · rw [exec_of_firstFault hf] at h
    cases h
    exact ⟨fun r _ => by cases r <;> rfl, fun _ => rfl, fun _ => rfl⟩
end

section
/-! PROOFS for spec/10_state.md: the fields of STATUS (R25). -/

namespace Sys2Proof.Machine

variable (s : State)

/-- STATUS above its five flag bits: CAUSE between the two reserved fields (spec R25). -/
def statusUpper : BitVec 27 := 0#20 ++ causeCode s.cause ++ 0#3

theorem statusWord_eq_concat :
    statusWord s =
      (((((statusUpper s).concat s.noinv).concat s.verdict).concat (faultBit s)).concat (doneBit s)).concat (busyBit s) :=
  rfl

theorem getLsbD_statusUpper_reserved {j : Nat} (h : j < 3 ∨ 7 ≤ j) : (statusUpper s).getLsbD j = false := by
  rw [statusUpper, BitVec.getLsbD_append, BitVec.getLsbD_append]
  rcases h with hlow | hhigh
  · simp [hlow]
  · simp [show ¬ j < 3 by omega, show ¬ j - 3 < 4 by omega]

theorem getLsbD_statusWord_add_five (j : Nat) : (statusWord s).getLsbD (j + 5) = (statusUpper s).getLsbD j := by
  simp only [statusWord_eq_concat, BitVec.getLsbD_concat_succ]

/-- The reserved bits of STATUS read 0 (spec R25). -/
theorem getLsbD_statusWord_reserved {j : Nat} (h : 5 ≤ j ∧ j ≤ 7 ∨ 12 ≤ j) : (statusWord s).getLsbD j = false := by
  obtain ⟨k, rfl⟩ : ∃ k, j = k + 5 := ⟨j - 5, by omega⟩
  rw [getLsbD_statusWord_add_five]
  exact getLsbD_statusUpper_reserved s (by omega)

/-- STATUS as a number is the sum of its fields, each at its place (spec R25). -/
theorem toNat_statusWord :
    (statusWord s).toNat = (causeCode s.cause).toNat * 256 + s.noinv.toNat * 16 + s.verdict.toNat * 8 +
      ((faultBit s).toNat * 4 + (doneBit s).toNat * 2 + (busyBit s).toNat) := by
  have hupper : (statusUpper s).toNat = (causeCode s.cause).toNat * 8 := by
    rw [statusUpper, BitVec.toNat_append, BitVec.toNat_append]
    simp [Nat.shiftLeft_eq]
  simp only [statusWord_eq_concat, BitVec.toNat_concat, hupper]
  omega

/-- The three phase bits of STATUS, read as one number (spec R24, R25). -/
def phaseCode : Phase → Nat
  | .idle => 0
  | .busy => 1
  | .done => 2
  | .fault => 4

theorem phaseBits_eq_phaseCode :
    (faultBit s).toNat * 4 + (doneBit s).toNat * 2 + (busyBit s).toNat = phaseCode s.phase := by
  unfold faultBit doneBit busyBit
  cases s.phase <;> rfl

theorem phaseCode_lt (p : Phase) : phaseCode p < 8 := by cases p <;> decide

theorem toNat_statusWord_phase : (statusWord s).toNat % 8 = phaseCode s.phase := by
  have hlt := phaseCode_lt s.phase
  rw [toNat_statusWord, phaseBits_eq_phaseCode]
  omega

theorem toNat_statusWord_cause : (statusWord s).toNat / 256 % 16 = (causeCode s.cause).toNat := by
  have hcause := (causeCode s.cause).isLt
  have hnoinv := s.noinv.toNat_le
  have hverdict := s.verdict.toNat_le
  have hphase := phaseCode_lt s.phase
  rw [toNat_statusWord, phaseBits_eq_phaseCode]
  omega

end Sys2Proof.Machine

open Sys2Proof.Machine

/-- Settles O11: each field stands where the concatenation of STATUS puts it. -/
theorem statusWordFields : Obligations.StatusWordFields := by
  intro s
  have hphase := toNat_statusWord_phase s
  refine ⟨?busy, ?done, ?fault, ?verdict, ?noinv, ?low, ?cause, ?high, ?idle, ?oneHot⟩
  case busy | done | fault =>
    simp [statusWord_eq_concat, BitVec.getElem_concat, busyBit, doneBit, faultBit, Bool.beq_eq_decide_eq]
  case verdict | noinv => simp [statusWord_eq_concat, BitVec.getElem_concat]
  case low => exact fun j h5 h7 => getLsbD_statusWord_reserved s (.inl ⟨h5, h7⟩)
  case cause =>
    rw [toNat_statusWord_cause]
    cases s.cause <;> rfl
  case high => exact fun j h12 => getLsbD_statusWord_reserved s (.inr h12)
  case idle | oneHot =>
    rw [hphase]
    cases s.phase <;> simp [phaseCode]
end

section
/-! PROOFS for spec/20_memory.md: the register index space and what one move of the HOST does with it (R51, R55, R56, R58), and
when a step is the HOST's move (R252). -/

namespace Sys2Proof.Machine

/-! The index table (spec R51). -/

@[simp] theorem regAt_indexOf (r : Reg) : regAt (indexOf r) = some r := by cases r <;> rfl

/-- Each integer register stands at one index (spec R22, R51). -/
theorem regAt_eq_some_iff {i : Index} {r : Reg} : regAt i = some r ↔ i = indexOf r := by
  refine ⟨fun h => ?_, fun h => by rw [h, regAt_indexOf]⟩
  unfold regAt at h
  split at h <;> cases h
  all_goals exact BitVec.eq_of_toNat_eq (by assumption)

/-- An index without an integer register is none of the seven (spec R51). -/
theorem regAt_eq_none_iff {i : Index} : regAt i = none ↔ ∀ r, i ≠ indexOf r := by
  simp [Option.eq_none_iff_forall_ne_some, regAt_eq_some_iff]

/-- The seven indices of the integer registers, written out from the table of spec R51. -/
theorem forall_ne_indexOf_iff {i : Index} :
    (∀ r, i ≠ indexOf r) ↔
      i ≠ 0x02#8 ∧ i ≠ 0x03#8 ∧ i ≠ 0x04#8 ∧ i ≠ 0x05#8 ∧ i ≠ 0x08#8 ∧ i ≠ 0x09#8 ∧ i ≠ 0x0A#8 := by
  refine ⟨fun h => ⟨h .a, h .b, h .n, h .k, h .r0, h .r1, h .r2⟩, fun h r => ?_⟩
  obtain ⟨ha, hb, hn, hk, h0, h1, h2⟩ := h
  cases r <;> assumption

theorem portValue_indexOf (r : Reg) (s : State) : portValue (indexOf r) s = s.read r := by cases r <;> rfl

/-- CMD and the reserved indices read 0 (spec R51). -/
theorem portValue_of_ne {i : Index} (s : State) (hs : i ≠ indexStatus) (hr : ∀ r, i ≠ indexOf r) : portValue i s = 0 := by
  rw [portValue, if_neg hs, regAt_eq_none_iff.mpr hr]

theorem portValue_eq_table (i : Index) (s : State) :
    portValue i s =
      if i = 0x01#8 then ((statusWord s).toNat : Int)
      else if i = 0x02#8 then s.a
      else if i = 0x03#8 then s.b
      else if i = 0x04#8 then s.n
      else if i = 0x05#8 then s.k
      else if i = 0x08#8 then s.r0
      else if i = 0x09#8 then s.r1
      else if i = 0x0A#8 then s.r2
      else 0 := by
  by_cases hs : i = indexStatus
  · subst hs; rfl
  by_cases hr : ∃ r, i = indexOf r
  · obtain ⟨r, rfl⟩ := hr
    cases r <;> rfl
  · have hne : ∀ r, i ≠ indexOf r := not_exists.mp hr
    have hstatus : i ≠ 0x01#8 := hs
    simp [portValue_of_ne s hs hne, hstatus, forall_ne_indexOf_iff.mp hne]

/-! The write of an operand register (spec R56). -/

theorem writeTarget_of_fault {s : State} (i : Index) (h : s.phase = .fault) : writeTarget i s = none := by
  unfold writeTarget
  split <;> simp [h]

theorem writeTarget_indexOf {s : State} (r : Reg) (h : s.phase ≠ .fault) :
    writeTarget (indexOf r) s = if hostWritable r then some r else none := by
  simp [writeTarget, h]

theorem writeTarget_of_ne {i : Index} (s : State) (h : ∀ r, i ≠ indexOf r) : writeTarget i s = none := by
  rw [writeTarget, regAt_eq_none_iff.mpr h]

/-- The machine after a write that the port carries, at an index other than CMD (spec R56): the target is set, if there is one. -/
def writeOperand (i : Index) (v : Int) (s : State) : State := (writeTarget i s).elim s (s.write · v)

theorem hostWriteFor_eq_writeOperand {m : Option Nat} {i : Index} {v : Int} {s : State} (hb : s.phase ≠ .busy)
    (hi : i ≠ indexCmd) (hv : fitsBits m v = true) : hostWriteFor m i v s = some (.next (writeOperand i v s)) := by
  rw [hostWriteFor, if_neg hb, if_neg hi, if_neg (by simp [hv]), writeOperand]
  cases writeTarget i s <;> rfl

theorem writeOperand_of_fault {s : State} (i : Index) (v : Int) (h : s.phase = .fault) : writeOperand i v s = s := by
  rw [writeOperand, writeTarget_of_fault i h, Option.elim_none]

theorem writeOperand_eq_table {s : State} (i : Index) (v : Int) (h : s.phase ≠ .fault) :
    writeOperand i v s =
      { s with
        a := if i = 0x02#8 then v else s.a
        b := if i = 0x03#8 then v else s.b
        n := if i = 0x04#8 then v else s.n
        k := if i = 0x05#8 then v else s.k } := by
  by_cases hr : ∃ r, i = indexOf r
  · obtain ⟨r, rfl⟩ := hr
    rw [writeOperand, writeTarget_indexOf r h]
    cases r <;> rfl
  · have hne : ∀ r, i ≠ indexOf r := not_exists.mp hr
    simp [writeOperand, writeTarget_of_ne s hne, forall_ne_indexOf_iff.mp hne]

/-! HostIssue (spec R58). -/

theorem hostIssue_of_idle_or_done (w : Word) {s : State} (h : s.phase = .idle ∨ s.phase = .done) :
    hostIssue w s = some { s with cmdw := w, phase := .busy } := by
  rcases h with h | h <;> simp [hostIssue, h]

theorem hostIssue_of_busy (w : Word) {s : State} (h : s.phase = .busy) : hostIssue w s = none := by simp [hostIssue, h]

theorem hostIssue_of_fault (w : Word) {s : State} (h : s.phase = .fault) : hostIssue w s = some s := by simp [hostIssue, h]

theorem hostWriteFor_of_busy (m : Option Nat) (i : Index) (v : Int) {s : State} (h : s.phase = .busy) :
    hostWriteFor m i v s = none := if_pos h

/-- In every phase a write of a word's value to CMD is HostIssue of the word. -/
theorem hostWriteFor_cmd_toNat (m : Option Nat) (w : Word) (s : State) :
    hostWriteFor m indexCmd (w.toNat : Int) s = (hostIssue w s).map .next := by
  by_cases hb : s.phase = .busy
  · rw [hostWriteFor_of_busy m _ _ hb, hostIssue_of_busy w hb, Option.map_none]
  · have hw : (0 : Int) ≤ w.toNat ∧ (w.toNat : Int) < 2 ^ 32 := by
      have := w.isLt
      omega
    rw [hostWriteFor, if_neg hb, if_pos rfl, if_pos hw, BitVec.ofInt_natCast, BitVec.ofNat_toNat, BitVec.setWidth_eq]

/-! A move of the HOST (spec R76). -/

theorem hostStep_of_script {s : State} {l : ScriptLine} {rest : List ScriptLine} (h : s.host.script = l :: rest) :
    hostStep s = hostLine l rest s := by
  rw [hostStep, h]

theorem hostRead_of_held {i : Index} {s : State} (hb : s.phase = .busy) (hs : i ≠ indexStatus) (hc : i ≠ indexCmd) :
    hostRead i s = none := if_pos ⟨hb, hs, hc⟩

theorem hostRead_of_not_held {i : Index} {s : State} (h : s.phase ≠ .busy ∨ i = indexCmd ∨ i = indexStatus) :
    hostRead i s = some (portValue i s) := if_neg (by tauto)

/-- Either form of an issue (spec R58, R76) is HostIssue with the line used up. -/
theorem hostLine_issue {w : Word} {l : ScriptLine} (h : l = .cmdw w ∨ l = .wr indexCmd (w.toNat : Int))
    (rest : List ScriptLine) (s : State) : hostLine l rest s = (hostIssue w (withScript rest s)).map .next := by
  rcases h with rfl | rfl
  · rfl
  · exact hostWriteFor_cmd_toNat Config.maxBits w (withScript rest s)

/-- Whether the HOST is held in BUSY depends on its next line alone, so not on the turns. -/
theorem hostStep_sched_eq_none {s : State} (hb : s.phase = .busy) (c : Schedule) (h : hostStep s = none) :
    hostStep { s with sched := c } = none := by
  cases hl : s.host.script with
  | nil => simp [hostStep, hl]
  | cons l rest =>
    rw [hostStep_of_script hl] at h
    rw [hostStep_of_script (s := { s with sched := c }) hl]
    cases l with
    | rd i =>
      have hread : hostRead i s = none := Option.map_eq_none_iff.mp h
      exact Option.map_eq_none_iff.mpr hread
    | wr i v => exact hostWriteFor_of_busy Config.maxBits i v hb
    | cmdw w => exact Option.map_eq_none_iff.mpr (hostIssue_of_busy w hb)
    | wait => cases h
    | rng v => cases h
    | reset => cases h

/-! Which agent moves (spec R7, R252). -/

theorem agentMove_host_of_some {s : State} {o : Result} (h : hostStep s = some o) : agentMove .host s = o := by
  rw [agentMove, h, Option.getD_some]

theorem agentMove_host_of_none {s : State} (h : hostStep s = none) : agentMove .host s = .next s := by
  rw [agentMove, h, Option.getD_none]

/-- Outside BUSY the ENGINE has no move, so the step is the HOST's (spec R252). -/
theorem step_of_ne_busy {s : State} (hpin : s.resetPin = false) (hb : s.phase ≠ .busy) : step s = agentMove .host s := by
  have hengine : engineStep s = none := if_neg hb
  simp [step, advance, hpin, hengine]

/-- In BUSY, where the HOST has a move, the step is that of the agent whose turn it is (log entry 4). -/
theorem step_contested {s : State} (hpin : s.resetPin = false) (hb : s.phase = .busy) (hh : hostStep s ≠ none) :
    step s = agentMove (takeTurn s).1 (takeTurn s).2 := by
  have hengine : engineStep s = some (complete s) := if_pos hb
  have hhost : (hostStep s).isSome = true := Option.isSome_iff_ne_none.mpr hh
  simp [step, advance, hpin, hengine, hhost]

end Sys2Proof.Machine

open Sys2Proof.Machine

/-- Settles O40: CMD and STATUS are never held, and the value read is the table's. -/
theorem hostReadReturnsTheTable : Obligations.HostReadReturnsTheTable := by
  intro s i rest hl
  rw [hostStep_of_script hl, ← portValue_eq_table i s]
  refine ⟨fun hb hc hs => ?_, fun h => ?_⟩
  · rw [hostLine, hostRead_of_held hb hs hc, Option.map_none]
  · rw [hostLine, hostRead_of_not_held h]
    rfl

/-- Settles O41: outside BUSY a write that the port carries sets its target, and in FAULT there is none. -/
theorem hostWriteSetsOperandsOnly : Obligations.HostWriteSetsOperandsOnly := by
  intro s i v rest hl hi
  rw [hostStep_of_script hl, hostLine, hostWrite]
  refine ⟨fun hb => hostWriteFor_of_busy _ i v hb, fun hv hphase => ?_, fun hv hphase => ?_⟩
  · have hbusy : (withScript rest s).phase ≠ .busy := by rcases hphase with h | h <;> simp [h]
    have hfault : (withScript rest s).phase ≠ .fault := by rcases hphase with h | h <;> simp [h]
    rw [hostWriteFor_eq_writeOperand hbusy hi hv, writeOperand_eq_table i v hfault]
    rfl
  · have hbusy : (withScript rest s).phase ≠ .busy := by simp [hphase]
    have hfault : (withScript rest s).phase = .fault := hphase
    rw [hostWriteFor_eq_writeOperand hbusy hi hv, writeOperand_of_fault i v hfault]
    rfl

/-- Settles O43: both lines are HostIssue of the word. -/
theorem hostIssueLatchesTheWord : Obligations.HostIssueLatchesTheWord := by
  intro s w l rest hissue hl
  rw [hostStep_of_script hl, hostLine_issue hissue rest s]
  refine ⟨fun h => ?_, fun h => ?_, fun h => ?_⟩
  · have hphase : (withScript rest s).phase = .idle ∨ (withScript rest s).phase = .done := h
    rw [hostIssue_of_idle_or_done w hphase]
    rfl
  · have hphase : (withScript rest s).phase = .busy := h
    rw [hostIssue_of_busy w hphase, Option.map_none]
  · have hphase : (withScript rest s).phase = .fault := h
    rw [hostIssue_of_fault w hphase]
    rfl

/-- Settles O5: outside BUSY only the HOST can move, and in BUSY it moves in its own turn. -/
theorem stepPerformsHostMove : Obligations.StepPerformsHostMove := by
  intro s hpin
  refine ⟨fun hb o ho => ?_, fun hb hnone => ?_, fun hb hturn o ho => ?_⟩
  · rw [step_of_ne_busy hpin hb, agentMove_host_of_some ho]
  · rw [step_of_ne_busy hpin hb, agentMove_host_of_none hnone]
  · have hmoves : hostStep s ≠ none := fun hnone => by
      obtain ⟨c, hc⟩ := takeTurn_eq s
      rw [hc, hostStep_sched_eq_none hb c hnone] at ho
      cases ho
    rw [step_contested hpin hb hmoves, hturn, agentMove_host_of_some ho]
end

section
/-! PROOFS for spec/30_encoding.md: the opcode map (R70, R72, R73). -/

namespace Sys2Proof

/-! The fields of a command word (spec R70). -/

theorem toNat_opcField (w : Word) : (opcField w).toNat = w.toNat % 256 := by
  simp [opcField]

theorem zeroField_eq_zero_iff (w : Word) : zeroField w = 0#24 ↔ w.toNat / 256 = 0 := by
  have hw := w.isLt
  rw [← BitVec.toNat_inj, zeroField, BitVec.extractLsb'_toNat, Nat.shiftRight_eq_div_pow]
  simp only [BitVec.toNat_ofNat]
  omega

/-! The opcode map (spec R72, R73). -/

theorem toNat_of_decodeOpc_ok {opc : BitVec 8} {i : Instr} (h : decodeOpc opc = .ok i) : opc.toNat = (encode i).toNat := by
  unfold decodeOpc at h
  split at h <;> cases h <;> assumption

theorem decodeOpc_rejects_iff (opc : BitVec 8) :
    (∃ e, decodeOpc opc = .error e) ↔ opc.toNat = 0 ∨ 0x0B ≤ opc.toNat := by
  unfold decodeOpc
  split
  case h_11 =>
    simp only [imp_false] at *
    exact iff_of_true ⟨_, rfl⟩ (by omega)
  all_goals exact iff_of_false (by simp) (by omega)

theorem decode_of_zeroField_eq_zero {w : Word} (h : zeroField w = 0#24) : decode w = decodeOpc (opcField w) := if_pos h

theorem decode_of_zeroField_ne_zero {w : Word} (h : zeroField w ≠ 0#24) : decode w = .error .zeroFieldSet := if_neg h

theorem decode_encode (i : Instr) : decode (encode i) = .ok i := by cases i <;> rfl

/-- The decoder selects a command by its match word alone (spec R72). -/
theorem decode_eq_ok_iff {w : Word} {i : Instr} : decode w = .ok i ↔ w = encode i := by
  refine ⟨fun h => ?_, fun h => by rw [h, decode_encode]⟩
  by_cases hzero : zeroField w = 0#24
  · rw [decode_of_zeroField_eq_zero hzero] at h
    have hopc : w.toNat % 256 = (encode i).toNat := toNat_opcField w ▸ toNat_of_decodeOpc_ok h
    have hhigh := (zeroField_eq_zero_iff w).mp hzero
    exact BitVec.eq_of_toNat_eq (by omega)
  · rw [decode_of_zeroField_ne_zero hzero] at h
    cases h

/-- Bits 31:8 of a match word are 0, so it is known by its two fields (spec R70, R72). -/
theorem eq_encode_iff_fields {w : Word} {i : Instr} :
    w = encode i ↔ w.toNat / 256 = 0 ∧ w.toNat % 256 = (encode i).toNat := by
  have hsmall : (encode i).toNat < 256 := by cases i <;> decide
  rw [← BitVec.toNat_inj]
  omega

end Sys2Proof

open Sys2Proof

/-- Settles O1: both forms say that the word is the command's match word. -/
theorem wordSelectsCommandByOpcode : Obligations.WordSelectsCommandByOpcode := by
  intro i
  refine ⟨fun w => ?_, fun w => decode_eq_ok_iff⟩
  rw [decode_eq_ok_iff, eq_encode_iff_fields]
  cases i <;> rfl

/-- Settles O2: field ZERO rejects the words from 256 up, and field OPC the others. -/
theorem illegalWordsAreRejected : Obligations.IllegalWordsAreRejected := by
  intro w
  by_cases hzero : zeroField w = 0#24
  · have hhigh := (zeroField_eq_zero_iff w).mp hzero
    rw [decode_of_zeroField_eq_zero hzero, decodeOpc_rejects_iff, toNat_opcField]
    omega
  · have hhigh : 256 ≤ w.toNat := by
      have := mt (zeroField_eq_zero_iff w).mpr hzero
      omega
    exact iff_of_true ⟨_, decode_of_zeroField_ne_zero hzero⟩ (.inl hhigh)

/-- Settles O3: the six are match words, and each of the four is refused by the first field that is wrong. -/
theorem sampleWordsDecode : Obligations.SampleWordsDecode :=
  ⟨decode_encode .mulmod, decode_encode .modexp, decode_encode .egcd, decode_encode .fermat, decode_encode .primetest,
    decode_encode .rsadec, by decide⟩
end

section
/-! PROOFS for spec/30_encoding.md: the ENGINE's step runs the decoded command (R78), and the host's wait (R76). -/

namespace Sys2Proof.Machine

theorem agentMove_engine_of_busy {s : State} (hb : s.phase = .busy) : agentMove .engine s = complete s := by
  rw [agentMove, engineStep_some.mpr ⟨hb, rfl⟩, Option.getD_some]

/-- In BUSY, where the HOST has no move, the step is `Complete` (spec R78). -/
theorem step_uncontested {s : State} (hpin : s.resetPin = false) (hb : s.phase = .busy) (hh : hostStep s = none) :
    step s = complete s := by
  have hengine : engineStep s = some (complete s) := engineStep_some.mpr ⟨hb, rfl⟩
  simp [step, advance, hpin, hh, hengine, agentMove_engine_of_busy hb]

/-- In BUSY, where the HOST has a move and the turn is the ENGINE's, the step is `Complete` with that turn used up. -/
theorem step_engineTurn {s : State} (hpin : s.resetPin = false) (hb : s.phase = .busy) (hh : hostStep s ≠ none)
    (hturn : (takeTurn s).1 = .engine) : step s = complete (takeTurn s).2 := by
  have hbusy : (takeTurn s).2.phase = .busy := by
    obtain ⟨c, hc⟩ := takeTurn_eq s
    rw [hc]
    exact hb
  rw [step_contested hpin hb hh, hturn, agentMove_engine_of_busy hbusy]

theorem takeTurn_cmdw (s : State) : (takeTurn s).2.cmdw = s.cmdw := by
  obtain ⟨c, hc⟩ := takeTurn_eq s
  rw [hc]

theorem complete_of_decode_ok {s : State} {i : Instr} (h : decode s.cmdw = .ok i) : complete s = exec i s := by
  rw [complete, h]

/-- A `wait` is one read of STATUS, after which the line is next again in BUSY and used up otherwise (spec R76). -/
theorem hostStep_wait {s : State} {rest : List ScriptLine} (h : s.host.script = .wait :: rest) :
    hostStep s = some (.next (logRead indexStatus (statusWord s).toNat
      (withScript (if s.phase = .busy then .wait :: rest else rest) s))) := by
  rw [hostStep_of_script h]
  rfl

end Sys2Proof.Machine

open Sys2Proof Sys2Proof.Machine

/-- Settles O4: the step is `Complete`, and the turn has no part in the word it decodes. -/
theorem stepRunsDecodedCommand : Obligations.StepRunsDecodedCommand := by
  intro s i hpin hb hdecode
  refine ⟨fun hnone => ?_, fun hmoves hturn => ?_⟩
  · rw [step_uncontested hpin hb hnone, complete_of_decode_ok hdecode]
  · have hlatch : decode (takeTurn s).2.cmdw = .ok i := by rw [takeTurn_cmdw, hdecode]
    rw [step_engineTurn hpin hb hmoves hturn, complete_of_decode_ok hlatch]

/-- Settles O44: a `wait` logs its read of STATUS and touches nothing but the HOST agent. -/
theorem waitPollsStatus : Obligations.WaitPollsStatus := by
  intro s rest hl
  exact ⟨_, hostStep_wait hl, rfl, fun hb => if_pos hb, fun hb => if_neg hb, rfl⟩
end

section
/-! PROOFS for spec/40_modmul_modexp.md: square and multiply computes the power (R104), and the laws of PowMod (R105). -/

namespace Sys2Proof.Machine

theorem modNN_modEq (v : Int) {n : Int} (h : 1 ≤ n) : modNN v n ≡ v [ZMOD n] := by
  rw [modNN_eq_emod v n h]
  exact Int.mod_modEq v n

theorem mulMod_modEq (x y : Int) {n : Int} (h : 1 ≤ n) : mulMod x y n ≡ x * y [ZMOD n] := modNN_modEq (x * y) h

/-- The product after one pass takes in the square where the exponent's last bit is set. -/
theorem productStep_modEq (r s : Int) (e : Nat) {n : Int} (h : 1 ≤ n) :
    (if e % 2 = 1 then mulMod r s n else r) ≡ r * s ^ (e % 2) [ZMOD n] := by
  rcases Nat.mod_two_eq_zero_or_one e with he | he
  · simp [he, Int.ModEq.refl]
  · simpa [he] using mulMod_modEq r s h

/-- After one pass the square is that of `s`, except where no bit of the exponent is left, so that it is not used again. -/
theorem squareStep_pow_modEq (s : Int) (e : Nat) {n : Int} (h : 1 ≤ n) :
    (if 0 < e / 2 then mulMod s s n else s) ^ (e / 2) ≡ (s * s) ^ (e / 2) [ZMOD n] := by
  split
  · exact (mulMod_modEq s s h).pow _
  · rename_i hlast
    simp [Nat.eq_zero_of_not_pos hlast, Int.ModEq.refl]

theorem pow_mod_two_mul_pow_half (s : Int) (e : Nat) : s ^ (e % 2) * (s * s) ^ (e / 2) = s ^ e := by
  rw [← pow_two, ← pow_mul, ← pow_add, Nat.mod_add_div]

/-- The loop multiplies `r` by the power of `s` (spec R104): `r * s^e` keeps its residue in every pass. -/
theorem powLoop_modEq {fuel e : Nat} (r s : Int) {n : Int} (h : 1 ≤ n) (hfuel : bitlen e ≤ fuel) :
    powLoop fuel r s e n ≡ r * s ^ e [ZMOD n] := by
  induction fuel generalizing r s e with
  | zero =>
    have he : e < 2 ^ 0 := (bitlen_le_iff e 0).mp hfuel
    simp [powLoop, Nat.lt_one_iff.mp he, Int.ModEq.refl]
  | succ fuel ih =>
    unfold powLoop
    split
    · rename_i he
      simp [he, Int.ModEq.refl]
    · rename_i he
      have hhalf : bitlen (e / 2) ≤ fuel := by
        have := bitlen_half e he
        omega
      calc powLoop fuel _ _ (e / 2) n
        _ ≡ _ * _ ^ (e / 2) [ZMOD n] := ih _ _ hhalf
        _ ≡ r * s ^ (e % 2) * (s * s) ^ (e / 2) [ZMOD n] := (productStep_modEq r s e h).mul (squareStep_pow_modEq s e h)
        _ = r * s ^ e := by rw [mul_assoc, pow_mod_two_mul_pow_half]

/-- Square and multiply from the identity and the base reduced, with any fuel from `bitlen e` up (spec R104). -/
theorem powLoop_eq_modNN_pow (a : Int) {fuel e : Nat} {n : Int} (h : 1 ≤ n) (hfuel : bitlen e ≤ fuel) :
    powLoop fuel (modNN 1 n) (modNN a n) e n = modNN (a ^ e) n := by
  have hmod : powLoop fuel (modNN 1 n) (modNN a n) e n ≡ a ^ e [ZMOD n] := by
    simpa using (powLoop_modEq (modNN 1 n) (modNN a n) h hfuel).trans ((modNN_modEq 1 h).mul ((modNN_modEq a h).pow e))
  obtain ⟨hlo, hhi⟩ : powLoop fuel (modNN 1 n) (modNN a n) e n ∈ Set.Ico 0 n :=
    powLoop_mem_Ico h ⟨modNN_nonneg 1 n h, modNN_lt 1 n h⟩
  exact eq_modNN_of_dvd h hlo hhi hmod.dvd

theorem powMod_eq_modNN_pow (a : Int) (e : Nat) {n : Int} (h : 1 ≤ n) : powMod a e n = modNN (a ^ e) n :=
  powLoop_eq_modNN_pow a h le_rfl

theorem powMod_eq_emod (a : Int) (e : Nat) {n : Int} (h : 1 ≤ n) : powMod a e n = a ^ e % n := by
  rw [powMod_eq_modNN_pow a e h, modNN_eq_emod _ n h]

theorem powMod_add (a : Int) (e f : Nat) {n : Int} (h : 1 ≤ n) :
    powMod a (e + f) n = mulMod (powMod a e n) (powMod a f n) n := by
  rw [mulMod_eq_emod _ _ n h, powMod_eq_emod _ _ h, powMod_eq_emod _ _ h, powMod_eq_emod _ _ h, pow_add, Int.mul_emod]

theorem powMod_modNN (a : Int) (e : Nat) {n : Int} (h : 1 ≤ n) : powMod (modNN a n) e n = powMod a e n := by
  rw [powMod_eq_emod _ _ h, powMod_eq_emod _ _ h]
  exact (modNN_modEq a h).pow e

end Sys2Proof.Machine

open Sys2Proof.Machine

/-- Settles O48: the loop keeps the residue of `r * s^e`, and its value lies in `[0, n)`. -/
theorem powModIsThePower : Obligations.PowModIsThePower := fun a e _ h =>
  ⟨powMod_eq_modNN_pow a e h, fun _ hfuel => powLoop_eq_modNN_pow a h hfuel⟩

/-- Settles O49: the laws are those of powers and residues. -/
theorem powModLaws : Obligations.PowModLaws := by
  intro a e f n h
  have hpow := powMod_eq_modNN_pow a e h
  refine ⟨hpow ▸ modNN_nonneg _ n h, hpow ▸ modNN_lt _ n h, rfl, ?_, powMod_add a e f h, (powMod_modNN a e h).symm⟩
  rw [powMod_eq_modNN_pow a 1 h, pow_one]
end

section
/-! PROOFS for spec/40_modmul_modexp.md: the combine calls of PowMod (R106). -/

namespace Sys2Proof.Machine

@[simp] theorem bitlen_zero : bitlen 0 = 0 := rfl

/-- Counting changes nothing of the value (spec R106). -/
theorem powCountLoop_fst (fuel : Nat) (r s : Int) (e : Nat) (n : Int) (muls squares : Nat) :
    (powCountLoop fuel r s e n muls squares).1 = powLoop fuel r s e n := by
  induction fuel generalizing r s e muls squares with
  | zero => rfl
  | succ fuel ih =>
    unfold powCountLoop powLoop
    split
    · rfl
    · exact ih _ _ _ _ _

/-- The bits set in `e`, by its last bit and the rest. -/
theorem digits_sum_half {e : Nat} (h : e ≠ 0) : (Nat.digits 2 e).sum = e % 2 + (Nat.digits 2 (e / 2)).sum := by
  rw [Nat.digits_def' one_lt_two (Nat.pos_of_ne_zero h), List.sum_cons]

/-- The calls counted from any start: one product a set bit of the exponent, one square a bit but the last. -/
theorem powCountLoop_snd {fuel e : Nat} (r s n : Int) (muls squares : Nat) (hfuel : bitlen e ≤ fuel) :
    (powCountLoop fuel r s e n muls squares).2 = (muls + (Nat.digits 2 e).sum, squares + (bitlen e - 1)) := by
  induction fuel generalizing r s e muls squares with
  | zero =>
    have he : e < 2 ^ 0 := (bitlen_le_iff e 0).mp hfuel
    simp [powCountLoop, Nat.lt_one_iff.mp he]
  | succ fuel ih =>
    unfold powCountLoop
    split
    · rename_i he
      simp [he]
    · rename_i he
      have hbits := bitlen_half e he
      have hmuls : (if e % 2 = 1 then muls + 1 else muls) = muls + e % 2 := by split <;> omega
      have hsquares : (if 0 < e / 2 then squares + 1 else squares) + (bitlen (e / 2) - 1) = squares + bitlen (e / 2) := by
        split
        · have := bitlen_half (e / 2) (by omega)
          omega
        · rename_i hlast
          simp [Nat.eq_zero_of_not_pos hlast]
      rw [ih _ _ _ _ (by omega), hmuls, hsquares, hbits, digits_sum_half he, add_assoc, Nat.add_sub_cancel]

theorem powCount_fst (a : Int) (e : Nat) (n : Int) : (powCount a e n).1 = powMod a e n := powCountLoop_fst _ _ _ _ _ _ _

theorem powCount_snd (a : Int) (e : Nat) (n : Int) : (powCount a e n).2 = ((Nat.digits 2 e).sum, bitlen e - 1) := by
  simpa [powCount] using powCountLoop_snd (modNN 1 n) (modNN a n) n 0 0 (le_refl (bitlen e))

theorem digits_sum_le_bitlen (e : Nat) : (Nat.digits 2 e).sum ≤ bitlen e := by
  induction e using Nat.strong_induction_on with
  | h e ih =>
    by_cases he : e = 0
    · simp [he]
    · have hhalf := ih (e / 2) (by omega)
      rw [digits_sum_half he, bitlen_half e he]
      omega

end Sys2Proof.Machine

open Sys2Proof.Machine

/-- Settles O50: each pass counts the exponent's last bit and, unless it is the only one, one square. -/
theorem combineCallCount : Obligations.CombineCallCount := by
  refine ⟨powCountLoop_fst, fun a e n => ⟨powCount_fst a e n, rfl, fun he => ?_⟩⟩
  have hbits := bitlen_half e (by omega)
  have hsum := digits_sum_le_bitlen e
  rw [combineCalls, powCount_snd]
  exact ⟨rfl, by omega, by omega, by omega⟩
end

section
/-! PROOFS for spec/40_modmul_modexp.md: limb multiplication with propagated carry (R107). -/

namespace Sys2Proof.Machine

/-- `ts` writes the magnitude `v` in `len` limbs below `beta` (spec R107). -/
structure IsLimbs (beta v len : Nat) (ts : List Nat) : Prop where
  value : limbValue beta ts = v
  length : ts.length = len
  bound : ∀ t ∈ ts, t < beta

section

variable {beta : Nat}

theorem isLimbs_of_bound {ts : List Nat} (h : ∀ t ∈ ts, t < beta) : IsLimbs beta (limbValue beta ts) ts.length ts :=
  ⟨rfl, rfl, h⟩

theorem IsLimbs.cons {t v len : Nat} {ts : List Nat} (ht : t < beta) (h : IsLimbs beta v len ts) :
    IsLimbs beta (t + beta * v) (len + 1) (t :: ts) where
  value := by rw [limbValue, h.value]
  length := by rw [List.length_cons, h.length]
  bound := List.forall_mem_cons.mpr ⟨ht, h.bound⟩

theorem IsLimbs.uncons {v len : Nat} {ts : List Nat} (h : IsLimbs beta v (len + 1) ts) :
    ∃ t u us, ts = t :: us ∧ v = t + beta * u ∧ t < beta ∧ IsLimbs beta u len us := by
  obtain ⟨hvalue, hlength, hbound⟩ := h
  cases ts with
  | nil => cases hlength
  | cons t us =>
    obtain ⟨ht, hus⟩ := List.forall_mem_cons.mp hbound
    exact ⟨t, _, us, rfl, hvalue.symm, ht, rfl, Nat.succ.inj hlength, hus⟩

theorem isLimbs_zero (h : 0 < beta) (len : Nat) : IsLimbs beta 0 len (List.replicate len 0) := by
  induction len with
  | zero => exact ⟨rfl, rfl, by simp⟩
  | succ len ih => simpa [List.replicate_succ] using ih.cons h

/-- The propagated carry stays below `beta` (spec R107). -/
theorem carry_lt {t x y carry : Nat} (ht : t < beta) (hx : x < beta) (hy : y < beta) (hc : carry < beta) :
    (t + x * y + carry) / beta < beta := by
  obtain ⟨b, rfl⟩ : ∃ b, beta = b + 1 := ⟨beta - 1, by omega⟩
  have hxy : x * y ≤ b * b := Nat.mul_le_mul (by omega) (by omega)
  rw [Nat.div_lt_iff_lt_mul (by omega)]
  linarith

/-- The row of a limb adds its product with the second factor to the low limbs of the accumulator, whose next place is unused; the
higher places stay. -/
theorem limbRow_spec {x v w len carry : Nat} {low ys : List Nat} (high : List Nat) (hx : x < beta) (hc : carry < beta)
    (hlow : IsLimbs beta v len low) (hys : IsLimbs beta w len ys) :
    ∃ row, limbRow beta x (low ++ 0 :: high) ys carry = row ++ high ∧ IsLimbs beta (v + x * w + carry) (len + 1) row := by
  induction len generalizing v w carry low ys with
  | zero =>
    obtain ⟨rfl, hlow, -⟩ := hlow
    obtain ⟨rfl, hys, -⟩ := hys
    obtain rfl := List.length_eq_zero_iff.mp hlow
    obtain rfl := List.length_eq_zero_iff.mp hys
    exact ⟨[carry], rfl, by simp [limbValue], rfl, by simpa using hc⟩
  | succ len ih =>
    obtain ⟨t, v, low, rfl, rfl, ht, hlow⟩ := hlow.uncons
    obtain ⟨y, w, ys, rfl, rfl, hy, hys⟩ := hys.uncons
    obtain ⟨row, hrow, hlimbs⟩ := ih (carry_lt ht hx hy hc) hlow hys
    refine ⟨(t + x * y + carry) % beta :: row, by simp [limbRow, hrow], ?_⟩
    have hvalue : t + beta * v + x * (y + beta * w) + carry =
        (t + x * y + carry) % beta + beta * (v + x * w + (t + x * y + carry) / beta) := by
      have := Nat.mod_add_div (t + x * y + carry) beta
      linarith
    rw [hvalue]
    exact hlimbs.cons (Nat.mod_lt _ (by omega))

/-- The rows of all limbs add the product to what the accumulator holds in its low limbs, the other places being unused. -/
theorem limbRows_isLimbs {u v w m len : Nat} {xs low ys : List Nat} (hxs : IsLimbs beta u m xs)
    (hlow : IsLimbs beta v len low) (hys : IsLimbs beta w len ys) :
    IsLimbs beta (v + u * w) (m + len) (limbRows beta xs (low ++ List.replicate m 0) ys) := by
  induction m generalizing u v xs low with
  | zero =>
    obtain ⟨rfl, hlength, -⟩ := hxs
    obtain rfl := List.length_eq_zero_iff.mp hlength
    simpa [limbRows, limbValue] using hlow
  | succ m ih =>
    obtain ⟨x, u, xs, rfl, rfl, hx, hxs⟩ := hxs.uncons
    obtain ⟨row, hrow, hlimbs⟩ := limbRow_spec (List.replicate m 0) hx (by omega : 0 < beta) hlow hys
    obtain ⟨t, v', low', rfl, hv, ht, hlow'⟩ := hlimbs.uncons
    have hvalue : v + (x + beta * u) * w = t + beta * (v' + u * w) := by linarith
    rw [List.replicate_succ, limbRows, hrow, hvalue, Nat.add_right_comm]
    exact (ih hxs hlow').cons ht

/-- Limb multiplication writes the product of the magnitudes in as many limbs as both factors have (spec R107). -/
theorem limbMul_isLimbs {u w m len : Nat} {xs ys : List Nat} (h : 0 < beta) (hxs : IsLimbs beta u m xs)
    (hys : IsLimbs beta w len ys) : IsLimbs beta (u * w) (m + len) (limbMul beta xs ys) := by
  have hzero : List.replicate (xs.length + ys.length) 0 = List.replicate len 0 ++ List.replicate m 0 := by
    rw [List.replicate_append_replicate, hxs.length, hys.length, Nat.add_comm]
  rw [limbMul, hzero]
  simpa using limbRows_isLimbs hxs (isLimbs_zero h len) hys

end

end Sys2Proof.Machine

open Sys2Proof.Machine

/-- Settles O54: each row adds one limb's product at its place, and the carry stays below `beta`. -/
theorem limbMultiplicationIsTheProduct : Obligations.LimbMultiplicationIsTheProduct := by
  intro bits xs ys hxs hys
  obtain ⟨hvalue, hlength, hbound⟩ := limbMul_isLimbs (Nat.two_pow_pos bits) (isLimbs_of_bound hxs) (isLimbs_of_bound hys)
  exact ⟨hvalue, hlength, hbound⟩
end

section
/-! PROOFS for spec/40_modmul_modexp.md: the commands MULMOD and MODEXP (R102, R103). -/

namespace Sys2Proof.Machine

theorem exec_mulmod (s : State) : exec .mulmod s = execMulmod s := rfl

theorem exec_modexp (s : State) : exec .modexp s = execModexp s := rfl

end Sys2Proof.Machine

open Sys2Proof.Machine

/-- Settles O16: behind CheckModulus, the combining operation is the residue of the product. -/
theorem mulmodComputesTheResidue : Obligations.MulmodComputesTheResidue := by
  refine ⟨rfl, fun s => ⟨fun hn => ?_, fun hn => ?_⟩⟩ <;> rw [exec_mulmod, execMulmod]
  · rw [checkModulus_fail s _ hn, raise_eq]
  · rw [checkModulus_pass s _ hn, mulMod_eq_emod _ _ _ hn, finish_eq, write_r0]

/-- Settles O17: behind the checks of N and of the exponent, PowMod is the residue of the power. -/
theorem modexpComputesThePower : Obligations.ModexpComputesThePower := by
  refine ⟨rfl, fun s => ⟨fun hn => ?_, fun hn hb => ?_, fun hn hb => ?_⟩⟩ <;> rw [exec_modexp, execModexp]
  · rw [checkModulus_fail s _ hn, raise_eq]
  · rw [checkModulus_pass s _ hn, checkExponent_fail _ s _ hb, raise_eq]
  · rw [checkModulus_pass s _ hn, checkExponent_pass _ s _ hb, powMod_eq_emod _ _ hn, finish_eq, write_r0]
end

section
/-! PROOFS for spec/41_primality.md: Factor2 (R122). -/

namespace Sys2Proof.Machine

theorem lt_bitlen_iff (v k : Nat) : k < bitlen v ↔ 2 ^ k ≤ v := by
  rw [← not_le, bitlen_le_iff, not_lt]

/-- The loop splits off `k` twos in `k` passes and then stops at the odd factor, whatever fuel is left (spec R122). -/
theorem factor2Loop_of_odd {q k fuel : Nat} (hq : q % 2 = 1) (hfuel : k ≤ fuel) (j : Nat) :
    factor2Loop fuel (q * 2 ^ k) j = (q, j + k) := by
  induction k generalizing fuel j with
  | zero => cases fuel <;> simp [factor2Loop, hq]
  | succ k ih =>
    obtain ⟨fuel, rfl⟩ := Nat.exists_eq_succ_of_ne_zero (show fuel ≠ 0 by omega)
    have heven : q * 2 ^ (k + 1) = q * 2 ^ k * 2 := by rw [pow_succ, mul_assoc]
    rw [factor2Loop, heven, if_pos (Nat.mul_mod_left _ 2), Nat.mul_div_cancel _ two_pos, ih (by omega)]
    congr 1
    omega

theorem factor2_of_odd {q : Nat} (hq : q % 2 = 1) (k : Nat) : factor2 (q * 2 ^ k) = (q, k) := by
  have hbits : k < bitlen (q * 2 ^ k) := (lt_bitlen_iff _ k).mpr (Nat.le_mul_of_pos_left _ (by omega))
  rw [factor2, factor2Loop_of_odd hq hbits.le, zero_add]

theorem factor2_odd {m : Nat} (h : 1 ≤ m) : (factor2 m).1 % 2 = 1 := by
  obtain ⟨k, q, hq, rfl⟩ := Nat.exists_eq_two_pow_mul_odd (show m ≠ 0 by omega)
  rw [mul_comm, factor2_of_odd (Nat.odd_iff.mp hq)]
  exact Nat.odd_iff.mp hq

end Sys2Proof.Machine

open Sys2Proof.Machine

/-- Settles O51: the loop on `q * 2^k` with `q` odd makes exactly `k` passes, and every `m ≥ 1` has that form. -/
theorem factor2SplitsOffTwos : Obligations.Factor2SplitsOffTwos := by
  intro m hm
  refine ⟨(factor2_prod m).symm, factor2_odd hm, ?_⟩
  rintro q k rfl hq
  exact factor2_of_odd hq k
end

section
/-! PROOFS for spec/41_primality.md: the Miller-Rabin round (R124), its degenerate witnesses and the prime candidates (R125). -/

namespace Sys2Proof.Machine

/-! ### The residues 1 and -1 -/

theorem emod_eq_one_iff_modEq {p : Int} (h : 2 ≤ p) (x : Int) : x % p = 1 ↔ x ≡ 1 [ZMOD p] := by
  rw [Int.ModEq, Int.emod_eq_of_lt one_pos.le (by omega)]

theorem emod_eq_pred_iff_modEq {p : Int} (h : 1 ≤ p) (x : Int) : x % p = p - 1 ↔ x ≡ -1 [ZMOD p] := by
  have hneg : -1 % p = p - 1 := by
    rw [← Int.add_emod_right, Int.emod_eq_of_lt (by omega) (by omega)]
    omega
  rw [Int.ModEq, hneg]

/-- Fermat's little theorem on residues. -/
theorem pow_pred_emod_prime {p : Nat} (hp : p.Prime) {a : Int} (ha : ¬ (p : Int) ∣ a) : a ^ (p - 1) % p = 1 := by
  have hcop : IsCoprime (p : Int) a := (Nat.prime_iff_prime_int.mp hp).coprime_iff_not_dvd.mpr ha
  exact (emod_eq_one_iff_modEq (by exact_mod_cast hp.two_le) _).mpr (Int.ModEq.pow_card_sub_one_eq_one hp hcop.symm)

/-- Modulo a prime, 1 has no square roots but 1 and -1. -/
theorem emod_eq_one_or_pred_of_sq {p : Nat} (hp : p.Prime) {x : Int} (h : x ^ 2 % p = 1) :
    x % p = 1 ∨ x % p = p - 1 := by
  have hp2 : (2 : Int) ≤ p := by exact_mod_cast hp.two_le
  have hdvd : (p : Int) ∣ (x - 1) * (x - -1) := by
    have hfactor : (x - 1) * (x - -1) = x ^ 2 - 1 := by ring
    rw [hfactor]
    exact ((emod_eq_one_iff_modEq hp2 _).mp h).symm.dvd
  exact ((Nat.prime_iff_prime_int.mp hp).dvd_or_dvd hdvd).imp
    (fun hone => (emod_eq_one_iff_modEq hp2 x).mpr (Int.modEq_iff_dvd.mpr hone).symm)
    (fun hneg => (emod_eq_pred_iff_modEq (by omega) x).mpr (Int.modEq_iff_dvd.mpr hneg).symm)

/-! ### The squaring chain -/

/-- After one squaring, `i` further ones give what `i + 1` give from the start. -/
theorem mulMod_self_pow_emod (x : Int) {p : Int} (h : 1 ≤ p) (i : Nat) :
    mulMod x x p ^ 2 ^ i % p = x ^ 2 ^ (i + 1) % p := by
  have hsq : x ^ 2 ^ (i + 1) = (x * x) ^ 2 ^ i := by rw [pow_succ', pow_mul, pow_two]
  rw [hsq]
  exact (mulMod_modEq x x h).pow _

/-- The chain answers true iff one of its `left` squarings reaches -1 and none before it reached 1 (spec R124). -/
theorem mrChain_iff {left : Nat} {x p : Int} (h : 1 ≤ p) :
    mrChain left x p = true ↔
      ∃ i, 1 ≤ i ∧ i ≤ left ∧ x ^ 2 ^ i % p = p - 1 ∧ ∀ j, 1 ≤ j → j < i → x ^ 2 ^ j % p ≠ 1 := by
  induction left generalizing x with
  | zero =>
    simp only [mrChain, Bool.false_eq_true, false_iff]
    rintro ⟨i, hi, hleft, -⟩
    omega
  | succ left ih =>
    have hone : x ^ 2 ^ 1 % p = mulMod x x p := by rw [mulMod_eq_emod x x p h, pow_one, pow_two]
    unfold mrChain
    split
    next hpred => exact iff_of_true rfl ⟨1, le_rfl, by omega, hone.trans hpred, fun j hj hj1 => by omega⟩
    next hpred =>
    split
    next hstop =>
      refine iff_of_false Bool.false_ne_true ?_
      rintro ⟨i, hi, -, hreach, hbefore⟩
      rcases hi.eq_or_lt with rfl | hi
      · exact hpred (hone.symm.trans hreach)
      · exact hbefore 1 le_rfl hi (hone.trans hstop)
    next hgo =>
      simp only [ih, mulMod_self_pow_emod x h]
      constructor
      · rintro ⟨i, hi, hleft, hreach, hbefore⟩
        refine ⟨i + 1, by omega, by omega, hreach, fun j hj hji => ?_⟩
        rcases hj.eq_or_lt with rfl | hj
        · rwa [hone]
        · obtain ⟨j, rfl⟩ := Nat.exists_eq_succ_of_ne_zero (show j ≠ 0 by omega)
          exact hbefore j (by omega) (by omega)
      · rintro ⟨i, hi, hleft, hreach, hbefore⟩
        rcases hi.eq_or_lt with rfl | hi
        · exact absurd (hone.symm.trans hreach) hpred
        · obtain ⟨i, rfl⟩ := Nat.exists_eq_succ_of_ne_zero (show i ≠ 0 by omega)
          exact ⟨i, by omega, by omega, hreach, fun j hj hji => hbefore (j + 1) (by omega) (by omega)⟩

/-- The round is what its rule says in powers (spec R124). -/
theorem millerRabin_iff_mrPasses {p : Int} (h : 1 ≤ p) (q : Nat) (k w : Int) :
    millerRabin p q k w = true ↔ MrPasses p q k w := by
  have hpow (i : Nat) : (w ^ q % p) ^ 2 ^ i % p = w ^ (q * 2 ^ i) % p := by
    rw [pow_mul]
    exact (Int.mod_modEq (w ^ q) p).pow _
  have hleft {i : Nat} (hi : 1 ≤ i) : i ≤ (k - 1).toNat ↔ (i : Int) < k := by omega
  rw [millerRabin, powMod_eq_emod w q h, MrPasses, ← or_assoc]
  split
  next hstart => exact iff_of_true rfl (.inl hstart)
  next hstart =>
    rw [mrChain_iff h, or_iff_right hstart]
    simp only [hpow]
    exact exists_congr fun i => and_congr_right fun hi => and_congr_left' (hleft hi)

/-! ### Degenerate witnesses -/

/-- No power of a witness that the candidate divides is 1 or -1 (spec R125). -/
theorem not_mrPasses_of_dvd {p : Int} (h : 2 ≤ p) {q : Nat} (hq : 1 ≤ q) (k : Int) {w : Int} (hw : p ∣ w) :
    ¬ MrPasses p q k w := by
  have hpow {m : Nat} (hm : m ≠ 0) : w ^ m % p = 0 := Int.emod_eq_zero_of_dvd (dvd_pow hw hm)
  rintro (hone | hpred | ⟨i, -, -, hpred, -⟩)
  · rw [hpow (by omega)] at hone
    omega
  · rw [hpow (by omega)] at hpred
    omega
  · rw [hpow (by positivity)] at hpred
    omega

theorem mrPasses_of_emod_eq_one {p : Int} (h : 2 ≤ p) (q : Nat) (k : Int) {w : Int} (hw : w % p = 1) :
    MrPasses p q k w := by
  rw [emod_eq_one_iff_modEq h] at hw
  exact .inl ((emod_eq_one_iff_modEq h _).mpr (by simpa using hw.pow q))

theorem mrPasses_of_emod_eq_pred {p : Int} (h : 1 ≤ p) {q : Nat} (hq : q % 2 = 1) (k : Int) {w : Int}
    (hw : w % p = p - 1) : MrPasses p q k w := by
  rw [emod_eq_pred_iff_modEq h] at hw
  have hpow : w ^ q ≡ (-1) ^ q [ZMOD p] := hw.pow q
  rw [(Nat.odd_iff.mpr hq).neg_one_pow] at hpow
  exact .inr (.inl ((emod_eq_pred_iff_modEq h _).mpr hpow))

/-! ### Prime candidates -/

/-- A prime passes: of the powers `w^(q * 2^i)`, the last is 1 by Fermat, and the one before the first that is 1 is a square root
of 1 other than 1, so -1 (spec R125). -/
theorem mrPasses_of_prime {p q k : Nat} (hp : p.Prime) (hpred : p - 1 = q * 2 ^ k) {w : Int} (hw : ¬ (p : Int) ∣ w) :
    MrPasses p q k w := by
  have hlast : w ^ (q * 2 ^ k) % p = 1 := hpred ▸ pow_pred_emod_prime hp hw
  have hex : ∃ i, w ^ (q * 2 ^ i) % p = 1 := ⟨k, hlast⟩
  obtain ⟨i, hi, hik, hmin⟩ : ∃ i, w ^ (q * 2 ^ i) % p = 1 ∧ i ≤ k ∧ ∀ j < i, w ^ (q * 2 ^ j) % p ≠ 1 :=
    ⟨Nat.find hex, Nat.find_spec hex, Nat.find_min' hex hlast, fun _ => Nat.find_min hex⟩
  cases i with
  | zero => exact .inl (by simpa using hi)
  | succ j =>
    rw [pow_succ, ← mul_assoc, pow_mul] at hi
    have hroot : w ^ (q * 2 ^ j) % p = p - 1 := (emod_eq_one_or_pred_of_sq hp hi).resolve_left (hmin j j.lt_succ_self)
    rcases j.eq_zero_or_pos with rfl | hj
    · exact .inr (.inl (by simpa using hroot))
    · exact .inr (.inr ⟨j, hj, by omega, hroot, fun l _ hl => hmin l (by omega)⟩)

end Sys2Proof.Machine

open Sys2Proof.Machine

/-- Settles O26: powers of 0, 1 and -1 are known modulo any candidate. -/
theorem mrDegenerateWitnesses : Obligations.MrDegenerateWitnesses := by
  intro p q k w hp
  have hround := millerRabin_iff_mrPasses (show 1 ≤ p by omega) q k w
  refine ⟨fun hq hw => ?_, fun hw => ?_, fun hw hq => ?_⟩
  · rw [← Bool.not_eq_true, hround]
    exact not_mrPasses_of_dvd hp hq k (Int.dvd_of_emod_eq_zero hw)
  · exact hround.mpr (mrPasses_of_emod_eq_one hp q k hw)
  · exact hround.mpr (mrPasses_of_emod_eq_pred (by omega) hq k hw)
end

section
/-! PROOFS for spec/41_primality.md: the draw of random bits (R126) and the commands FERMAT, MR and PRIMETEST (R121, R123, R127). -/

namespace Sys2Proof.Machine

/-! ### Commands by their first failed check -/

theorem exec_of_firstFault_eq {i : Instr} {s : State} {c : Cause} (h : firstFault i s = c) (hc : c ≠ .noFault) :
    exec i s = .next { s with cause := c, phase := .fault } := by
  subst h
  exact exec_of_firstFault hc

theorem exec_of_no_firstFault {i : Instr} {s : State} (h : firstFault i s = .noFault) : exec i s = completion i s := by
  rw [exec_eq_guarded, h, guarded_noFault]

theorem exec_fermat_of_modulus_pos {s : State} (hn : 1 ≤ s.n) :
    exec .fermat s = .next { s with verdict := decide (s.a ^ (s.n - 1).toNat % s.n = 1), phase := .done } := by
  have hchecks : firstFault .fermat s = .noFault := if_neg (by omega)
  rw [exec_of_no_firstFault hchecks, ← powMod_eq_emod s.a _ hn]
  rfl

theorem exec_mr_of_checks {s : State} (hn : 1 ≤ s.n) (hb : 0 ≤ s.b) :
    exec .mr s = .next { s with verdict := millerRabin s.n s.b.toNat s.k s.a, phase := .done } := by
  have hchecks : firstFault .mr s = .noFault := (if_neg (by omega)).trans (if_neg (by omega))
  rw [exec_of_no_firstFault hchecks]
  rfl

theorem exec_primetest_of_draw {s : State} {w : Nat} {g : RngAgent} (hn : 2 ≤ s.n)
    (hdraw : rngDraw (bitlen s.n.toNat) s.rng = some (w, g)) :
    exec .primetest s =
      .next { s with
        rng := g, r0 := w, r1 := (factor2 (s.n - 1).toNat).1, r2 := (factor2 (s.n - 1).toNat).2
        verdict := millerRabin s.n (factor2 (s.n - 1).toNat).1 (factor2 (s.n - 1).toNat).2 w
        phase := .done } := by
  have hchecks : firstFault .primetest s = .noFault := (if_neg (by omega)).trans (if_neg (by omega))
  rw [exec_of_no_firstFault hchecks, completion, results, hdraw]
  rfl

/-! ### The draw -/

theorem rngDraw_isSome_iff (bits : Nat) (g : RngAgent) :
    (rngDraw bits g).isSome = true ↔ g.scripted ≠ [] ∨ g.attached = true := by
  unfold rngDraw
  split
  next hscript => simp [hscript]
  next hscript => cases hattached : g.attached <;> simp [hscript]

theorem rngDraw_scripted (bits v : Nat) (g : RngAgent) :
    rngDraw bits { g with scripted := v :: g.scripted } = some (v % 2 ^ bits, g) := rfl

end Sys2Proof.Machine

open Sys2Proof.Machine

/-- Settles O23: behind CheckModulus, PowMod is the residue of the power. -/
theorem fermatDecidesByThePower : Obligations.FermatDecidesByThePower :=
  ⟨rfl, fun _ => ⟨fun hn => exec_of_firstFault_eq (if_pos hn) (by decide), exec_fermat_of_modulus_pos⟩⟩

/-- Settles O24: Fermat's little theorem for a prime, and a positive power of a multiple of N is 0 modulo N. -/
theorem fermatOfPrimesAndMultiples : Obligations.FermatOfPrimesAndMultiples := by
  refine fun s => ⟨fun p hp hsp ha => ?_, fun hn ha => ?_⟩
  · have hp1 : 1 ≤ p := hp.one_le
    have hexp : (s.n - 1).toNat = p - 1 := by omega
    have hpow : s.a ^ (s.n - 1).toNat % s.n = 1 := by
      rw [hexp, hsp]
      exact pow_pred_emod_prime hp (hsp ▸ ha)
    rw [exec_fermat_of_modulus_pos (by omega), decide_eq_true hpow]
  · have hpow : s.a ^ (s.n - 1).toNat % s.n = 0 := Int.emod_eq_zero_of_dvd (dvd_pow ha (by omega))
    rw [exec_fermat_of_modulus_pos (by omega), decide_eq_false (by omega)]

/-- Settles O25: behind the checks of N and of B, the verdict is that of the round. -/
theorem mrDecidesBySquaringChain : Obligations.MrDecidesBySquaringChain := by
  refine ⟨rfl, fun s => ⟨fun hn => ?_, fun hn hb => ?_, fun hn hb => ?_⟩⟩
  · exact exec_of_firstFault_eq (if_pos hn) (by decide)
  · exact exec_of_firstFault_eq ((if_neg (by omega)).trans (if_pos hb)) (by decide)
  · exact ⟨_, exec_mr_of_checks hn hb, millerRabin_iff_mrPasses hn _ _ _⟩

/-- Settles O27: a prime passes the round. -/
theorem mrAcceptsPrimes : Obligations.MrAcceptsPrimes := by
  intro s p hp _ hsp hb hk hsplit _ ha
  have hpred : p - 1 = s.b.toNat * 2 ^ s.k.toNat := by
    zify [hp.one_le]
    rw [Int.toNat_of_nonneg hb, ← hsplit, hsp]
  have hpass : MrPasses s.n s.b.toNat s.k s.a := by
    rw [← Int.toNat_of_nonneg hk, hsp]
    exact mrPasses_of_prime hp hpred (hsp ▸ ha)
  have hn : 1 ≤ s.n := by
    have := hp.one_le
    omega
  rw [exec_mr_of_checks hn hb, (millerRabin_iff_mrPasses hn _ _ _).mpr hpass]

/-- Settles O28: behind its checks, PRIMETEST is one round on the drawn witness and the factors of N - 1. -/
theorem primetestRunsOneRound : Obligations.PrimetestRunsOneRound := by
  refine ⟨rfl, fun s => ⟨fun hn => ?_, fun hn => ?_, fun w g hn hdraw => ?_⟩⟩
  · exact exec_of_firstFault_eq (if_pos hn) (by decide)
  · exact exec_of_firstFault_eq ((if_neg (by omega)).trans (if_pos hn)) (by decide)
  · have hprod := factor2_prod (s.n - 1).toNat
    refine ⟨_, _, _, exec_primetest_of_draw hn hdraw, ?_, factor2_odd (by omega), rngDraw_lt hdraw,
      millerRabin_iff_mrPasses (by omega) _ _ _⟩
    zify at hprod
    omega

/-- Settles O30: the draw reduces its answer to the bits asked for, and a scripted answer below the bound is not changed. -/
theorem rngAnswersLieInRange : Obligations.RngAnswersLieInRange := by
  refine fun bits g => ⟨rngDraw_isSome_iff bits g, fun _ _ => rngDraw_lt, fun w hw => ⟨g, ?_, rfl⟩⟩
  rw [rngDraw_scripted, Nat.mod_eq_of_lt hw]
end

section
/-! PROOFS for spec/42_egcd_modinv.md: the passes of Egcd (R152) and its laws (R153). -/

namespace Sys2Proof.Machine

/-! ### The passes -/

@[simp] theorem egcdLoop_zero (fuel : Nat) (x0 x1 a : Int) : egcdLoop fuel x0 x1 a 0 = (x0, a) := by
  cases fuel <;> rfl

theorem egcdLoop_succ {b : Int} (hb : b ≠ 0) (fuel : Nat) (x0 x1 a : Int) :
    egcdLoop (fuel + 1) x0 x1 a b = egcdLoop fuel x1 (x0 - tdiv a b * x1) b (trem a b) := if_neg hb

/-- A pass is paid for by the fall of the remainder's magnitude. -/
theorem natAbs_trem_le_of_fuel {fuel : Nat} {b : Int} (hb : b ≠ 0) (hfuel : b.natAbs ≤ fuel + 1) (a : Int) :
    (trem a b).natAbs ≤ fuel := by
  have := trem_natAbs_lt a b hb
  omega

/-- Fuel from `|b|` up is never short, so that the answer does not depend on it. -/
theorem egcdLoop_fuel {fuel fuel' : Nat} {x0 x1 a b : Int} (hfuel : b.natAbs ≤ fuel) (hfuel' : b.natAbs ≤ fuel') :
    egcdLoop fuel x0 x1 a b = egcdLoop fuel' x0 x1 a b := by
  induction fuel generalizing fuel' x0 x1 a b with
  | zero =>
    obtain rfl : b = 0 := by omega
    simp
  | succ fuel ih =>
    by_cases hb : b = 0
    · simp [hb]
    · obtain ⟨fuel', rfl⟩ := Nat.exists_eq_succ_of_ne_zero (show fuel' ≠ 0 by omega)
      rw [egcdLoop_succ hb, egcdLoop_succ hb]
      exact ih (natAbs_trem_le_of_fuel hb hfuel a) (natAbs_trem_le_of_fuel hb hfuel' a)

/-- One pass of the recurrence (spec R152), from any sufficient fuel to that of the next remainder. -/
theorem egcdLoop_of_ne_zero {fuel : Nat} {b : Int} (hb : b ≠ 0) (hfuel : b.natAbs ≤ fuel) (x0 x1 a : Int) :
    egcdLoop fuel x0 x1 a b = egcdLoop (trem a b).natAbs x1 (x0 - tdiv a b * x1) b (trem a b) := by
  obtain ⟨fuel, rfl⟩ := Nat.exists_eq_succ_of_ne_zero (show fuel ≠ 0 by omega)
  rw [egcdLoop_succ hb]
  exact egcdLoop_fuel (natAbs_trem_le_of_fuel hb hfuel a) le_rfl

@[simp] theorem egcd_zero_right (a : Int) : egcd a 0 = (1, a) := rfl

/-- A divisor of `a` is the last remainder after one pass. -/
theorem egcd_of_dvd {a b : Int} (hb : b ≠ 0) (hdvd : b ∣ a) : egcd a b = (0, b) := by
  have hrem : trem a b = 0 := by rw [trem_eq_tmod, Int.tmod_eq_zero_of_dvd hdvd]
  rw [egcd, egcdLoop_of_ne_zero hb le_rfl, hrem, egcdLoop_zero]

/-! ### The invariant -/

theorem gcd_trem (a b : Int) : Int.gcd b (trem a b) = Int.gcd a b := by
  rw [trem, Int.gcd_sub_mul_left_right, Int.gcd_comm]

theorem trem_nonneg {a : Int} (b : Int) (ha : 0 ≤ a) : 0 ≤ trem a b := by
  rw [trem_eq_tmod]
  exact Int.tmod_nonneg b ha

/-- What the loop of Egcd keeps from the operands `A`, `B` (spec R153): each remainder is its coefficient times `A` modulo `B`, the
remainders have the gcd of the operands, and they are not negative where the operands are not. -/
structure EgcdInvariant (A B x0 x1 a b : Int) : Prop where
  coeff : B ∣ x0 * A - a
  coeffNext : B ∣ x1 * A - b
  gcd : Int.gcd a b = Int.gcd A B
  nonneg : 0 ≤ A → 0 ≤ B → 0 ≤ a ∧ 0 ≤ b

theorem egcdInvariant_init (A B : Int) : EgcdInvariant A B 1 0 A B := by
  constructor <;> simp +contextual

theorem EgcdInvariant.step {A B x0 x1 a b : Int} (h : EgcdInvariant A B x0 x1 a b) :
    EgcdInvariant A B x1 (x0 - tdiv a b * x1) b (trem a b) where
  coeff := h.coeffNext
  coeffNext := by
    have hpass : (x0 - tdiv a b * x1) * A - trem a b = (x0 * A - a) - tdiv a b * (x1 * A - b) := by
      rw [trem]
      ring
    rw [hpass]
    exact dvd_sub h.coeff (h.coeffNext.mul_left _)
  gcd := (gcd_trem a b).trans h.gcd
  nonneg hA hB := ⟨(h.nonneg hA hB).2, trem_nonneg b (h.nonneg hA hB).1⟩

/-- With sufficient fuel the loop ends where the remainder is 0. -/
theorem EgcdInvariant.exists_final {fuel : Nat} {A B x0 x1 a b : Int} (h : EgcdInvariant A B x0 x1 a b)
    (hfuel : b.natAbs ≤ fuel) :
    ∃ x, EgcdInvariant A B (egcdLoop fuel x0 x1 a b).1 x (egcdLoop fuel x0 x1 a b).2 0 := by
  induction fuel generalizing x0 x1 a b with
  | zero =>
    obtain rfl : b = 0 := by omega
    exact ⟨x1, h⟩
  | succ fuel ih =>
    by_cases hb : b = 0
    · subst hb
      exact ⟨x1, by simpa using h⟩
    · rw [egcdLoop_succ hb]
      exact ih h.step (natAbs_trem_le_of_fuel hb hfuel a)

theorem egcd_invariant (a b : Int) : ∃ x, EgcdInvariant a b (egcd a b).1 x (egcd a b).2 0 :=
  (egcdInvariant_init a b).exists_final le_rfl

/-! ### The laws -/

theorem dvd_egcd_coeff_mul_sub_rem (a b : Int) : b ∣ (egcd a b).1 * a - (egcd a b).2 := by
  obtain ⟨_, h⟩ := egcd_invariant a b
  exact h.coeff

theorem natAbs_egcd_rem (a b : Int) : (egcd a b).2.natAbs = Int.gcd a b := by
  obtain ⟨_, h⟩ := egcd_invariant a b
  simpa using h.gcd

theorem egcd_rem_of_nonneg {a b : Int} (ha : 0 ≤ a) (hb : 0 ≤ b) : (egcd a b).2 = Int.gcd a b := by
  obtain ⟨_, h⟩ := egcd_invariant a b
  rw [← natAbs_egcd_rem, Int.natAbs_of_nonneg (h.nonneg ha hb).1]

/-- A coefficient as large as the modulus would be divided by it, and so would be the last remainder 1; modulo 1 the coefficient
is 0 (spec R153). -/
theorem natAbs_egcd_coeff_lt {a b : Int} (hb : 1 ≤ b) (hg : (egcd a b).2 = 1) : (egcd a b).1.natAbs < b.natAbs := by
  rcases hb.eq_or_lt with rfl | hb
  · rw [egcd_of_dvd one_ne_zero (one_dvd a)]
    decide
  · have hle := natAbs_egcd_coeff_le a b
    have hne : (egcd a b).1.natAbs ≠ b.natAbs := by
      intro heq
      have hcoeff : b ∣ (egcd a b).1 * a := (Int.natAbs_dvd_natAbs.mp heq.symm.dvd).mul_right a
      have hone : b ∣ 1 := hg ▸ (dvd_sub_right hcoeff).mp (dvd_egcd_coeff_mul_sub_rem a b)
      have := Int.le_of_dvd one_pos hone
      omega
    omega

end Sys2Proof.Machine

open Sys2Proof.Machine

/-- Settles O52: the remainder's magnitude falls in every pass, so that fuel from `|b|` up is never short. -/
theorem egcdRecurrence : Obligations.EgcdRecurrence := by
  intro fuel x0 x1 a b hfuel
  exact ⟨fun hb => hb ▸ egcdLoop_zero fuel x0 x1 a, fun hb => egcdLoop_of_ne_zero hb hfuel x0 x1 a⟩

/-- Settles O53: the loop's invariant, read where the remainder is 0, and the bounds of spec R6. -/
theorem egcdLaws : Obligations.EgcdLaws := by
  refine ⟨fun a b => ⟨?_, egcd_rem_of_nonneg, natAbs_egcd_rem a b, natAbs_egcd_coeff_le a b, natAbs_egcd_rem_le a b,
    fun _ hb hg => ?_⟩, by decide⟩
  · obtain ⟨y, hy⟩ := dvd_egcd_coeff_mul_sub_rem a b
    exact ⟨-y, by linarith⟩
  · have := natAbs_egcd_coeff_lt hb hg
    omega
end

section
/-! PROOFS for spec/42_egcd_modinv.md: the commands EGCD and MODINV (R150, R154). -/

namespace Sys2Proof.Machine

theorem exec_egcd (s : State) :
    exec .egcd s = .next { s with r0 := (egcd s.a s.b).1, r1 := (egcd s.a s.b).2, phase := .done } := rfl

theorem exec_modinv_of_modulus_pos {s : State} (hn : 1 ≤ s.n) :
    exec .modinv s =
      .next { s with
        r0 := modinvResult (egcd s.a s.n).1 (egcd s.a s.n).2 s.n, r1 := (egcd s.a s.n).2
        noinv := (egcd s.a s.n).2 != 1, phase := .done } := by
  have hchecks : firstFault .modinv s = .noFault := if_neg (by omega)
  rw [exec_of_no_firstFault hchecks]
  rfl

theorem modinvResult_of_ne_one {g : Int} (hg : g ≠ 1) (x n : Int) : modinvResult x g n = 0 := if_pos hg

theorem modinvResult_of_one (x n : Int) : modinvResult x 1 n = if x < 0 then x + n else x := rfl

theorem modinvResult_of_neg {x : Int} (hx : x < 0) (n : Int) : modinvResult x 1 n = x + n := by
  rw [modinvResult_of_one, if_pos hx]

theorem modinvResult_of_nonneg {x : Int} (hx : 0 ≤ x) (n : Int) : modinvResult x 1 n = x := by
  rw [modinvResult_of_one, if_neg hx.not_gt]

/-- The normalised coefficient is in `[0, n)` and differs from the coefficient by a multiple of `n` (spec R154). -/
theorem modinvResult_isResidue {x n : Int} (hx : x.natAbs < n.natAbs) (hn : 1 ≤ n) :
    0 ≤ modinvResult x 1 n ∧ modinvResult x 1 n < n ∧ n ∣ modinvResult x 1 n - x := by
  rcases lt_or_ge x 0 with hneg | hpos
  · rw [modinvResult_of_neg hneg]
    exact ⟨by omega, by omega, by simp⟩
  · rw [modinvResult_of_nonneg hpos]
    exact ⟨hpos, by omega, by simp⟩

/-- The last remainder 1 makes the normalised coefficient the inverse of `a` modulo `n`. -/
theorem modinvResult_isInverse {a n : Int} (hn : 1 ≤ n) (hg : (egcd a n).2 = 1) :
    0 ≤ modinvResult (egcd a n).1 1 n ∧ modinvResult (egcd a n).1 1 n < n ∧
      n ∣ modinvResult (egcd a n).1 1 n * a - 1 := by
  obtain ⟨hnonneg, hlt, hdvd⟩ := modinvResult_isResidue (natAbs_egcd_coeff_lt hn hg) hn
  have hcoeff : n ∣ (egcd a n).1 * a - 1 := hg ▸ dvd_egcd_coeff_mul_sub_rem a n
  have hsplit : modinvResult (egcd a n).1 1 n * a - 1 =
      (modinvResult (egcd a n).1 1 n - (egcd a n).1) * a + ((egcd a n).1 * a - 1) := by ring
  exact ⟨hnonneg, hlt, hsplit ▸ dvd_add (hdvd.mul_right a) hcoeff⟩

end Sys2Proof.Machine

open Sys2Proof.Machine

/-- Settles O18: no pass for B = 0, one for A = 0, and B divides what `x * A` leaves of the last remainder. -/
theorem egcdWritesCoefficientAndRemainder : Obligations.EgcdWritesCoefficientAndRemainder := by
  refine ⟨rfl, fun s => ⟨exec_egcd s, fun hb => ?_, fun ha hb => ?_, fun hb => ⟨_, rfl, ?_⟩⟩⟩
  · rw [exec_egcd, hb, egcd_zero_right]
  · rw [exec_egcd, ha, egcd_of_dvd hb (dvd_zero s.b)]
  · rw [Int.ediv_mul_cancel (dvd_sub_comm.mp (dvd_egcd_coeff_mul_sub_rem s.a s.b))]
    omega

/-- Settles O19: behind CheckModulus, the sentinel or the coefficient by its sign. -/
theorem modinvWritesInverseOrSentinel : Obligations.ModinvWritesInverseOrSentinel := by
  refine ⟨rfl, fun s => ⟨fun hn => exec_of_firstFault_eq (if_pos hn) (by decide), fun hn hg => ?_, fun hn hg hx => ?_,
    fun hn hg hx => ?_⟩⟩ <;> rw [exec_modinv_of_modulus_pos hn]
  · rw [modinvResult_of_ne_one hg, bne_iff_ne.mpr hg]
  · rw [hg, modinvResult_of_neg hx, bne_self_eq_false]
  · rw [hg, modinvResult_of_nonneg hx, bne_self_eq_false]

/-- Settles O20: NOINV says whether the last remainder is 1, which for A of either sign makes the coefficient an inverse. -/
theorem modinvAnswerIsTheInverse : Obligations.ModinvAnswerIsTheInverse := by
  intro s hn
  refine ⟨_, exec_modinv_of_modulus_pos hn, rfl, fun ha => ?_, fun hinv => ?_, fun hnone => ?_⟩
  · have hg := egcd_rem_of_nonneg ha (show 0 ≤ s.n by omega)
    exact ⟨by simp [hg], hg⟩
  · have hg : (egcd s.a s.n).2 = 1 := by simpa using hinv
    simpa only [hg] using modinvResult_isInverse hn hg
  · exact modinvResult_of_ne_one (bne_iff_ne.mp hnone) _ _
end

section
/-! PROOFS for spec/42_egcd_modinv.md: the command FINV (R155). -/

namespace Sys2Proof.Machine

theorem exec_finv_of_two_le {s : State} (hn : 2 ≤ s.n) :
    exec .finv s = .next { s with r0 := s.a ^ (s.n - 2).toNat % s.n, phase := .done } := by
  have hchecks : firstFault .finv s = .noFault := (if_neg (by omega)).trans (if_neg (by omega))
  rw [exec_of_no_firstFault hchecks, ← powMod_eq_emod s.a _ (show 1 ≤ s.n by omega)]
  rfl

end Sys2Proof.Machine

open Sys2Proof.Machine

/-- Settles O21: behind the checks of N and of the exponent N - 2, PowMod is the residue of the power. -/
theorem finvComputesThePower : Obligations.FinvComputesThePower := by
  refine ⟨rfl, fun s => ⟨fun hn => ?_, fun hn => ?_, exec_finv_of_two_le⟩⟩
  · exact exec_of_firstFault_eq (if_pos hn) (by decide)
  · exact exec_of_firstFault_eq ((if_neg (by omega)).trans (if_pos hn)) (by decide)

/-- Settles O22: one more factor A makes the power that of Fermat's little theorem. -/
theorem finvInvertsModuloAPrime : Obligations.FinvInvertsModuloAPrime := by
  intro s p hp hsp ha
  have hp2 : 2 ≤ p := hp.two_le
  have hexp : (s.n - 2).toNat + 1 = p - 1 := by omega
  refine ⟨_, exec_finv_of_two_le (by omega), rfl, ?_⟩
  calc s.a ^ (s.n - 2).toNat % s.n * s.a % s.n
    _ = s.a ^ (s.n - 2).toNat * s.a % s.n := (Int.mod_modEq _ _).mul_right s.a
    _ = s.a ^ (p - 1) % p := by rw [← pow_succ, hexp, hsp]
    _ = 1 := pow_pred_emod_prime hp (hsp ▸ ha)
end

section
/-! PROOFS for spec/43_rsa_transform.md: the commands RSAENC and RSADEC (R180, R181) and the round trip (R182). -/

namespace Sys2Proof.Machine

/-! ### The two commands -/

/-- Both opcodes name one function (spec R181). -/
theorem exec_rsa {i : Instr} (hi : i = .rsaenc ∨ i = .rsadec) (s : State) : exec i s = rsaTransform s := by
  rcases hi with rfl | rfl <;> rfl

theorem rsaTransform_of_checks {s : State} (hn : 1 ≤ s.n) (hb : 0 ≤ s.b) (ha : 0 ≤ s.a) (han : s.a < s.n) :
    rsaTransform s = .next { s with r0 := s.a ^ s.b.toNat % s.n, phase := .done } := by
  rw [rsaTransform, checkModulus_pass s _ hn, checkExponent_pass _ s _ hb, checkRange_pass s _ ha han,
    powMod_eq_emod _ _ hn, finish_eq, write_r0]

/-- RSADEC on the answer of RSAENC completes, with the product of the two exponents as the exponent of the message. -/
theorem rsadec_after_rsaenc {s : State} (hn : 1 ≤ s.n) (hb : 0 ≤ s.b) (ha : 0 ≤ s.a) (han : s.a < s.n) (d : Nat) :
    ∃ t u, exec .rsaenc s = .next t ∧ t.phase = .done ∧ exec .rsadec { t with a := t.r0, b := d } = .next u ∧
      u.phase = .done ∧ u.r0 = s.a ^ (s.b.toNat * d) % s.n := by
  have hlo : 0 ≤ s.a ^ s.b.toNat % s.n := Int.emod_nonneg _ (by omega)
  have hhi : s.a ^ s.b.toNat % s.n < s.n := Int.emod_lt_of_pos _ (by omega)
  refine ⟨_, _, (exec_rsa (.inl rfl) s).trans (rsaTransform_of_checks hn hb ha han), rfl,
    (exec_rsa (.inr rfl) _).trans (rsaTransform_of_checks hn (Int.natCast_nonneg d) hlo hhi), rfl, ?_⟩
  rw [pow_mul]
  exact (Int.mod_modEq (s.a ^ s.b.toNat) s.n).pow d

/-! ### Euler's theorem for a product of two primes -/

/-- Modulo a prime, an exponent that is 1 modulo `p - 1` gives the base back, for a base that the prime divides too. -/
theorem pow_succ_modEq_self {p m : Nat} (hp : p.Prime) (hm : p - 1 ∣ m) (a : Int) : a ^ (m + 1) ≡ a [ZMOD p] := by
  by_cases ha : (p : Int) ∣ a
  · have hpow : (p : Int) ∣ a ^ (m + 1) := dvd_pow ha m.succ_ne_zero
    exact (Int.modEq_zero_iff_dvd.mpr hpow).trans (Int.modEq_zero_iff_dvd.mpr ha).symm
  · obtain ⟨k, rfl⟩ := hm
    have hone : a ^ (p - 1) ≡ 1 [ZMOD p] :=
      (emod_eq_one_iff_modEq (by exact_mod_cast hp.two_le) _).mp (pow_pred_emod_prime hp ha)
    simpa [pow_succ, pow_mul] using (hone.pow k).mul_right a

/-- The congruences modulo two distinct primes give the one modulo their product (spec R182, 93 G4). -/
theorem pow_succ_modEq_self_mul {p q m : Nat} (hp : p.Prime) (hq : q.Prime) (hne : p ≠ q) (hm : (p - 1) * (q - 1) ∣ m)
    (a : Int) : a ^ (m + 1) ≡ a [ZMOD (p * q : Int)] :=
  (Int.modEq_and_modEq_iff_modEq_mul (m := p) (n := q) ((Nat.coprime_primes hp hq).mpr hne)).mp
    ⟨pow_succ_modEq_self hp (dvd_of_mul_right_dvd hm) a, pow_succ_modEq_self hq (dvd_of_mul_left_dvd hm) a⟩

/-- Exponents inverse modulo `(p - 1) * (q - 1)` have a positive product: of two distinct primes one is above 2, so that the modulus
is above 1 and does not divide -1. -/
theorem exists_eq_succ_of_inverse {p q k : Nat} (hp : p.Prime) (hq : q.Prime) (hne : p ≠ q)
    (h : ((p - 1 : Int) * (q - 1)) ∣ k - 1) : ∃ m, k = m + 1 ∧ (p - 1) * (q - 1) ∣ m := by
  have hp2 := hp.two_le
  have hq2 := hq.two_le
  have hcast : (((p - 1) * (q - 1) : Nat) : Int) = (p - 1) * (q - 1) := by
    push_cast [hp.one_le, hq.one_le]
    rfl
  rw [← hcast] at h
  cases k with
  | zero =>
    have hone : (p - 1) * (q - 1) = 1 := Nat.dvd_one.mp (by simpa using Int.natCast_dvd.mp h)
    have := Nat.eq_one_of_mul_eq_one_right hone
    have := Nat.eq_one_of_mul_eq_one_left hone
    omega
  | succ m =>
    rw [Nat.cast_succ, add_sub_cancel_right] at h
    exact ⟨m, rfl, Int.natCast_dvd_natCast.mp h⟩

end Sys2Proof.Machine

open Sys2Proof.Machine

/-- Settles O31: behind the checks of N, of the exponent and of the range, PowMod is the residue of the power. -/
theorem rsaTransformsComputeThePower : Obligations.RsaTransformsComputeThePower := by
  refine ⟨rfl, rfl, fun s i hi => ?_⟩
  rw [exec_rsa hi s]
  refine ⟨fun hn => ?_, fun hn hb => ?_, fun hn hb ha => ?_, rsaTransform_of_checks⟩ <;> rw [rsaTransform]
  · rw [checkModulus_fail s _ hn, raise_eq]
  · rw [checkModulus_pass s _ hn, checkExponent_fail _ s _ hb, raise_eq]
  · rw [checkModulus_pass s _ hn, checkExponent_pass _ s _ hb, checkRange_fail s _ ha, raise_eq]

/-- Settles O32: the power with the product of the exponents is the message modulo each prime; for p = q = 61, N divides it. -/
theorem rsaRoundTrip : Obligations.RsaRoundTrip := by
  refine ⟨fun s p q d hp hq hne hn ha han hb hinv => ?_, fun s ha hb hn => ?_⟩
  · obtain ⟨t, u, henc, htdone, hdec, hudone, hr0⟩ := rsadec_after_rsaenc (by omega) hb ha han d
    refine ⟨t, u, henc, htdone, hdec, hudone, ?_⟩
    rw [← Int.toNat_of_nonneg hb] at hinv
    obtain ⟨m, hm, hdvd⟩ := exists_eq_succ_of_inverse hp hq hne (by exact_mod_cast hinv)
    have hpow : s.a ^ (m + 1) % s.n = s.a % s.n := hn ▸ pow_succ_modEq_self_mul hp hq hne hdvd s.a
    rw [hr0, hm, hpow, Int.emod_eq_of_lt ha han]
  · obtain ⟨t, u, henc, -, hdec, hudone, hr0⟩ :=
      rsadec_after_rsaenc (s := s) (by omega) (by omega) (by omega) (by omega) 1543
    refine ⟨t, u, henc, hdec, hudone, ?_⟩
    have hdvd : (61 : Int) ^ 2 ∣ 61 ^ (7 * 1543) := pow_dvd_pow 61 (by decide)
    rw [hr0, ha, hb, hn]
    exact Int.emod_eq_zero_of_dvd hdvd
end

section
/-! PROOFS for spec/43_rsa_transform.md: what a command's answer depends on (R183, R105, R75). -/

namespace Sys2Proof.Machine

/-- Two ends of a command agree on the result registers and flags of its row (spec R75). -/
structure ResultsAgree (i : Instr) (u v : State) : Prop where
  regs : ∀ r ∈ writesRegs i, u.read r = v.read r
  verdict : writesVerdict i = true → u.verdict = v.verdict
  noinv : writesNoinv i = true → u.noinv = v.noinv

/-- PHASE is no result. -/
theorem ResultsAgree.withPhase {i : Instr} {u v : State} (h : ResultsAgree i u v) (p : Phase) :
    ResultsAgree i { u with phase := p } { v with phase := p } :=
  { h with regs := fun r hr => by cases r <;> exact h.regs _ hr }

section

variable {i : Instr} {s t : State} (hread : ∀ r ∈ readsRegs i, s.read r = t.read r)
include hread

/-- The checks look at operand registers only. -/
theorem firstFault_congr : firstFault i s = firstFault i t := by
  cases i <;> simp only [readsRegs, List.forall_mem_cons, read_a, read_b, read_n, read_k] at hread <;>
    simp [firstFault, hread]

/-- The results are computed from the operand registers, and PRIMETEST's from its draw. -/
theorem results_agree (hrng : i = .primetest → s.rng = t.rng) :
    Option.Rel (ResultsAgree i) (results i s) (results i t) := by
  cases i with
  | primetest =>
    have hn : s.n = t.n := hread .n (by decide)
    rw [results, results, hn, hrng rfl]
    cases rngDraw (bitlen t.n.toNat) t.rng with
    | none => exact .none
    | some draw => exact .some (by constructor <;> simp [writesRegs, writesNoinv, primetestWith])
  | mulmod | modexp | egcd | modinv | finv | fermat | mr | rsaenc | rsadec =>
    simp only [readsRegs, List.forall_mem_cons, read_a, read_b, read_n, read_k] at hread
    exact .some (by constructor <;> simp [writesRegs, writesVerdict, writesNoinv, hread])

end

end Sys2Proof.Machine

open Sys2Proof.Machine

/-- Settles O39: both runs have the same first failed check, and where no check fails, results that agree. -/
theorem resultsDependOnNamedOperands : Obligations.ResultsDependOnNamedOperands := by
  intro i s t s' t' hs ht hread hrng hexecS hexecT
  rw [exec_eq_guarded, firstFault_congr hread] at hexecS
  rw [exec_eq_guarded] at hexecT
  by_cases hf : firstFault i t = .noFault
  · rw [hf, guarded_noFault, completion] at hexecS hexecT
    have hagree := results_agree hread hrng
    generalize results i s = u at hexecS hagree
    generalize results i t = v at hexecT hagree
    cases hagree with
    | none =>
      cases hexecS
      cases hexecT
      exact ⟨hs.trans ht.symm, fun hfault => by simp [hs] at hfault, fun hdone => by simp [hs] at hdone⟩
    | some hagree =>
      cases hexecS
      cases hexecT
      obtain ⟨hregs, hverdict, hnoinv⟩ := hagree.withPhase .done
      exact ⟨rfl, fun hfault => Phase.noConfusion hfault, fun _ => ⟨hregs, hverdict, hnoinv⟩⟩
  · rw [guarded_of_ne _ _ hf, raise_eq] at hexecS hexecT
    cases hexecS
    cases hexecT
    exact ⟨rfl, fun _ => rfl, fun hdone => Phase.noConfusion hdone⟩
end

section
/-! PROOFS for spec/48_host_sequences.md: the text codec (R204, R205). -/

namespace Sys2Proof.Machine

theorem charCode_lt (c : Char) : c.toNat < 0x110000 := by
  have hvalid : c.toNat < 0xD800 ∨ 0xDFFF < c.toNat ∧ c.toNat < 0x110000 := c.valid
  omega

theorem toNat_byte {v : Nat} (h : v < 256) : (BitVec.ofNat 8 v).toNat = v := by
  rw [BitVec.toNat_ofNat, Nat.mod_eq_of_lt h]

theorem utf8Point_of_eq {c : Char} {least v : Nat} (hv : v = c.toNat) (h : least ≤ v) : utf8Point least v = some c := by
  subst hv
  rw [utf8Point, if_pos ⟨h, c.valid⟩, Char.ofNat_toNat]

/-- A continuation byte gives its six payload bits back. -/
theorem utf8Tail_continuation (t : Nat) : utf8Tail (BitVec.ofNat 8 (0x80 + t % 64)) = some (t % 64) := by
  rw [utf8Tail, toNat_byte (by omega), if_pos (by omega), Nat.add_sub_cancel_left]

/-! ### The four forms of a character, by the range of the lead byte

The binds are read by `Option.bind_eq_some_iff`, a rewrite: a proof that computes them has the kernel compare the code points by
unfolding their products, which takes seconds. -/

section

variable {c : Char} {b b1 b2 b3 : Byte} {t1 t2 t3 : Nat} (rest : List Byte)

theorem utf8Head_one (hb : b.toNat < 0x80) (hc : utf8Point 0 b.toNat = some c) :
    utf8Head (b :: rest) = some (c, rest) := by
  unfold utf8Head
  simp only [if_pos hb, hc, Option.map_some]

theorem utf8Head_two (hb : 0xC0 ≤ b.toNat ∧ b.toNat < 0xE0) (h1 : utf8Tail b1 = some t1)
    (hc : utf8Point 0x80 ((b.toNat - 0xC0) * 64 + t1) = some c) :
    utf8Head (b :: b1 :: rest) = some (c, rest) := by
  unfold utf8Head
  simp (disch := omega) only [if_neg, if_pos, Option.bind_eq_bind, Option.bind_eq_some_iff]
  exact ⟨t1, h1, c, hc, rfl⟩

theorem utf8Head_three (hb : 0xE0 ≤ b.toNat ∧ b.toNat < 0xF0) (h1 : utf8Tail b1 = some t1) (h2 : utf8Tail b2 = some t2)
    (hc : utf8Point 0x800 ((b.toNat - 0xE0) * 4096 + t1 * 64 + t2) = some c) :
    utf8Head (b :: b1 :: b2 :: rest) = some (c, rest) := by
  unfold utf8Head
  simp (disch := omega) only [if_neg, if_pos, Option.bind_eq_bind, Option.bind_eq_some_iff]
  exact ⟨t1, h1, t2, h2, c, hc, rfl⟩

theorem utf8Head_four (hb : 0xF0 ≤ b.toNat ∧ b.toNat < 0xF8) (h1 : utf8Tail b1 = some t1) (h2 : utf8Tail b2 = some t2)
    (h3 : utf8Tail b3 = some t3)
    (hc : utf8Point 0x10000 ((b.toNat - 0xF0) * 262144 + t1 * 4096 + t2 * 64 + t3) = some c) :
    utf8Head (b :: b1 :: b2 :: b3 :: rest) = some (c, rest) := by
  unfold utf8Head
  simp (disch := omega) only [if_neg, if_pos, Option.bind_eq_bind, Option.bind_eq_some_iff]
  exact ⟨t1, h1, t2, h2, t3, h3, c, hc, rfl⟩

end

/-- The lead byte of a character says how many bytes follow, and its payload with theirs is the code point. -/
theorem utf8Head_utf8Char_append (c : Char) (rest : List Byte) : utf8Head (utf8Char c ++ rest) = some (c, rest) := by
  have hmax := charCode_lt c
  simp only [utf8Char]
  split_ifs with h1 h2 h3
  · have hlead := toNat_byte (show c.toNat < 256 by omega)
    exact utf8Head_one rest (by omega) (utf8Point_of_eq hlead (by omega))
  · have hlead := toNat_byte (show 0xC0 + c.toNat / 64 < 256 by omega)
    exact utf8Head_two rest (by omega) (utf8Tail_continuation _) (utf8Point_of_eq (by omega) (by omega))
  · have hlead := toNat_byte (show 0xE0 + c.toNat / 4096 < 256 by omega)
    exact utf8Head_three rest (by omega) (utf8Tail_continuation _) (utf8Tail_continuation _)
      (utf8Point_of_eq (by omega) (by omega))
  · have hlead := toNat_byte (show 0xF0 + c.toNat / 262144 < 256 by omega)
    exact utf8Head_four rest (by omega) (utf8Tail_continuation _) (utf8Tail_continuation _) (utf8Tail_continuation _)
      (utf8Point_of_eq (by omega) (by omega))

theorem utf8Char_ne_nil (c : Char) : utf8Char c ≠ [] := by
  simp only [utf8Char]
  split_ifs <;> simp

/-- A pass of the decoder for each byte is enough, since every character has a byte. -/
theorem utf8Loop_utf8Encode {fuel : Nat} (text : List Char) (hfuel : (utf8Encode text).length ≤ fuel) :
    utf8Loop fuel (utf8Encode text) = some text := by
  induction text generalizing fuel with
  | nil => cases fuel <;> rfl
  | cons c text ih =>
    have hsplit : utf8Encode (c :: text) = utf8Char c ++ utf8Encode text := rfl
    have hpos : 0 < (utf8Char c).length := List.length_pos_of_ne_nil (utf8Char_ne_nil c)
    rw [hsplit] at hfuel ⊢
    rw [List.length_append] at hfuel
    obtain ⟨fuel, rfl⟩ : ∃ k, fuel = k + 1 := ⟨fuel - 1, by omega⟩
    rw [utf8Loop, if_neg (by simp [utf8Char_ne_nil]), utf8Head_utf8Char_append]
    simp [ih (fuel := fuel) (by omega)]

end Sys2Proof.Machine

open Sys2Proof.Machine

/-- Settles O60: the decoder takes the characters off one after the other. -/
theorem textBytesRoundTrip : Obligations.TextBytesRoundTrip := fun text => utf8Loop_utf8Encode text le_rfl
end

section
/-! PROOFS for spec/48_host_sequences.md: how a host sequence ends (R200, R284, R285, R286). -/

namespace Sys2Proof.Machine

variable {α β : Type}

/-! ### The ends of a sequence -/

/-- The end of a sequence is as said: `V` of its value and the block after it, `A` of an abort and the block, `P` of the block where
the sequence is unfinished. -/
def SeqResult.Ends (V : α → State → Prop) (A : Abort → State → Prop) (P : State → Prop) : SeqResult α → Prop
  | .value v t => V v t
  | .abort why t => A why t
  | .pending t => P t

section

variable {V V' : α → State → Prop} {W : β → State → Prop} {A A' : Abort → State → Prop} {P P' : State → Prop}
  {r : SeqResult α}

theorem SeqResult.Ends.mono (h : r.Ends V A P) (hV : ∀ v t, V v t → V' v t) (hA : ∀ why t, A why t → A' why t)
    (hP : ∀ t, P t → P' t) : r.Ends V' A' P' := by
  cases r with
  | value v t => exact hV v t h
  | abort why t => exact hA why t h
  | pending t => exact hP t h

theorem SeqResult.Ends.imp_abort (h : r.Ends V A P) (hA : ∀ why t, A why t → A' why t) : r.Ends V A' P :=
  h.mono (fun _ _ hv => hv) hA fun _ hp => hp

theorem SeqResult.Ends.imp_pending (h : r.Ends V A P) (hP : ∀ t, P t → P' t) : r.Ends V A P' :=
  h.mono (fun _ _ hv => hv) (fun _ _ ha => ha) hP

/-- An end can be read together with which end it is. -/
theorem SeqResult.Ends.with_eq (h : r.Ends V A P) :
    r.Ends (fun v t => r = .value v t ∧ V v t) (fun why t => r = .abort why t ∧ A why t)
      (fun t => r = .pending t ∧ P t) := by
  cases r <;> exact ⟨rfl, h⟩

/-- A sequence after another one ends as the first did, or as it does from the value of the first. -/
theorem SeqResult.Ends.andThen {f : α → State → SeqResult β} (h : r.Ends V A P)
    (hf : ∀ v t, V v t → (f v t).Ends W A P) : (r.andThen f).Ends W A P := by
  cases r with
  | value v t => exact hf v t h
  | abort why t => exact h
  | pending t => exact h

theorem SeqResult.Ends.of_value {v : α} {t : State} (h : r.Ends V A P) (hr : r = .value v t) : V v t := by
  subst hr
  exact h

theorem SeqResult.Ends.exists_value (h : r.Ends V A P) (hA : ∀ why t, ¬ A why t) (hP : ∀ t, ¬ P t) :
    ∃ v t, r = .value v t := by
  cases r with
  | value v t => exact ⟨v, t, rfl⟩
  | abort why t => exact absurd h (hA why t)
  | pending t => exact absurd h (hP t)

end

theorem andThen_assoc {γ : Type} (r : SeqResult α) (f : α → State → SeqResult β) (g : β → State → SeqResult γ) :
    (r.andThen f).andThen g = r.andThen fun v t => (f v t).andThen g := by
  cases r <;> rfl

/-! ### The wait for the command in flight -/

/-- A PRIMETEST is in flight and the RNG does not answer its draw (spec R285). -/
def Unanswered (s : State) : Prop :=
  s.phase = .busy ∧ decode s.cmdw = .ok .primetest ∧ rngDraw (bitlen s.n.toNat) s.rng = none

/-- A fault of the block ended a sequence begun in `s`: it stood before, or the command in flight took it (spec R200, R286). -/
def FaultAbort (s : State) (why : Abort) (t : State) : Prop :=
  why = .blockFault t.cause ∧ t.phase = .fault ∧ (s.phase = .fault ∨ s.phase = .busy)

theorem awaitCompletion_ends (s : State) :
    (awaitCompletion s).Ends (fun _ t => t.phase = .idle ∨ t.phase = .done) (FaultAbort s) (fun t => t = s ∧ Unanswered s) := by
  cases hphase : s.phase with
  | idle => rw [awaitCompletion_ready (.inl hphase)]; exact .inl hphase
  | done => rw [awaitCompletion_ready (.inr hphase)]; exact .inr hphase
  | fault => rw [awaitCompletion_fault hphase]; exact ⟨rfl, hphase, .inl hphase⟩
  | busy =>
    rcases complete_ends s with ⟨t, hc, ht | ht⟩ | ⟨hc, hwait⟩
    · rw [awaitCompletion_busy hphase hc (by simp [ht]), awaitCompletion_ready (.inr ht)]
      exact .inr ht
    · rw [awaitCompletion_busy hphase hc (by simp [ht]), awaitCompletion_fault ht]
      exact ⟨rfl, ht, .inr hphase⟩
    · rw [awaitCompletion_held hphase hc hphase]
      exact ⟨rfl, hphase, hwait⟩

/-- A pseudo-instruction first waits for the command in flight, in whatever phase it is begun (spec R56, R284). -/
theorem blockCall_eq_await_andThen (i : Instr) (ws : List (Reg × Int)) (s : State) :
    blockCall i ws s = (awaitCompletion s).andThen fun _ t => blockCall i ws t := by
  have hends := awaitCompletion_ends s
  cases hr : awaitCompletion s with
  | value _ t => simp only [blockCall, hr, awaitCompletion_ready (hends.of_value hr), andThen_value]
  | abort | pending => simp only [blockCall, hr, andThen_abort, andThen_pending]

/-! ### A pseudo-instruction from IDLE or DONE -/

/-- A sequence ended at an operand of `S` that the port does not carry, with the block not in FAULT (spec R6, log entry 7). -/
def RefusedOperand (S : Set Int) (why : Abort) (t : State) : Prop :=
  t.phase ≠ .fault ∧ ∃ v, why = .operandTooWide v ∧ fitsBits Config.maxBits v = false ∧ v ∈ S

theorem RefusedOperand.mono {S S' : Set Int} (hS : S ⊆ S') {why : Abort} {t : State} (h : RefusedOperand S why t) :
    RefusedOperand S' why t := by
  obtain ⟨hphase, v, hwhy, hfit, hv⟩ := h
  exact ⟨hphase, v, hwhy, hfit, hS hv⟩

theorem not_refusedOperand_Icc {phi : Int} (h : fitsBits Config.maxBits phi = true) (why : Abort) (t : State) :
    ¬ RefusedOperand (Set.Icc 0 phi) why t := by
  rintro ⟨-, v, -, hfit, hlo, hhi⟩
  rw [fitsBits_of_natAbs_le h (by omega)] at hfit
  cases hfit

/-- The block with the operands `ws` written and the command `i` in flight. -/
def issued (i : Instr) (ws : List (Reg × Int)) (s : State) : State :=
  { ws.foldl (fun u p => u.write p.1 p.2) s with cmdw := encode i, phase := .busy }

/-- A pseudo-instruction from IDLE or DONE ends as the command does, or at one of its operands. -/
theorem blockCall_ends {i : Instr} {ws : List (Reg × Int)} {s : State} {V : Unit → State → Prop} {A : Abort → State → Prop}
    {P : State → Prop} {S : Set Int} (hs : s.phase = .idle ∨ s.phase = .done) (hr : ∀ p ∈ ws, hostWritable p.1 = true)
    (hS : ∀ p ∈ ws, p.2 ∈ S) (hA : ∀ why t, RefusedOperand S why t → A why t)
    (hdone : (awaitCompletion (issued i ws s)).Ends V A P) :
    (blockCall i ws s).Ends V A P := by
  rcases blockCall_cases (i := i) hr hs with ⟨p, hp, hfit, t, hcall, hphase⟩ | ⟨-, hcall⟩
  · rw [hcall]
    exact hA _ t ⟨by rcases hs with h | h <;> simp [hphase, h], p.2, rfl, hfit, hS p hp⟩
  · rw [hcall]
    exact hdone

/-- Only PRIMETEST waits for more than the ENGINE (spec R285). -/
theorem not_unanswered_issued {i : Instr} (hi : i ≠ .primetest) (ws : List (Reg × Int)) (s : State) :
    ¬ Unanswered (issued i ws s) := by
  rintro ⟨-, hdecode, -⟩
  rw [issued, decode_encode] at hdecode
  exact hi (Except.ok.inj hdecode)

theorem blockCall_egcd_ends {s : State} (hs : s.phase = .idle ∨ s.phase = .done) (a b : Int) :
    (blockCall .egcd [(.a, a), (.b, b)] s).Ends (fun _ t => t.phase = .done ∧ t.r1 = (egcd a b).2)
      (RefusedOperand {a, b}) (fun _ => False) := by
  refine blockCall_ends hs (by simp [hostWritable]) (by simp) (fun _ _ h => h) ?_
  rw [awaitCompletion_done rfl rfl (exec_egcd _) rfl]
  exact ⟨rfl, rfl⟩

theorem blockCall_modinv_ends {s : State} (hs : s.phase = .idle ∨ s.phase = .done) {a n : Int} (hn : 1 ≤ n) :
    (blockCall .modinv [(.a, a), (.n, n)] s).Ends
      (fun _ t => t.noinv = ((egcd a n).2 != 1) ∧ t.r0 = modinvResult (egcd a n).1 (egcd a n).2 n)
      (RefusedOperand {a, n}) (fun _ => False) := by
  refine blockCall_ends hs (by simp [hostWritable]) (by simp) (fun _ _ h => h) ?_
  rw [awaitCompletion_done rfl rfl (exec_modinv_of_modulus_pos (s := issued .modinv [(.a, a), (.n, n)] s) hn) rfl]
  exact ⟨rfl, rfl⟩

/-- The block is in a PRIMETEST of `N` whose draw the RNG does not answer. -/
def PrimetestWaits (t : State) : Prop :=
  t.phase = .busy ∧ t.cmdw = encode .primetest ∧ rngDraw (bitlen t.n.toNat) t.rng = none

theorem exec_primetest_of_no_draw {s : State} (hn : 2 ≤ s.n) (hdraw : rngDraw (bitlen s.n.toNat) s.rng = none) :
    exec .primetest s = .next s := by
  have hchecks : firstFault .primetest s = .noFault := (if_neg (by omega)).trans (if_neg (by omega))
  rw [exec_of_no_firstFault hchecks, completion, results, hdraw]
  rfl

theorem blockCall_primetest_ends {s : State} (hs : s.phase = .idle ∨ s.phase = .done) {c : Int} (hc : 2 ≤ c) :
    (blockCall .primetest [(.n, c)] s).Ends (fun _ t => t.phase = .done ∧ t.n = c) (RefusedOperand {c})
      (fun t => PrimetestWaits t ∧ t.n = c) := by
  refine blockCall_ends hs (by simp [hostWritable]) (by simp) (fun _ _ h => h) ?_
  cases hdraw : rngDraw (bitlen c.toNat) s.rng with
  | none =>
    have hexec := exec_primetest_of_no_draw (s := issued .primetest [(.n, c)] s) hc hdraw
    rw [awaitCompletion_held rfl ((complete_encode _ _ rfl).trans hexec) rfl]
    exact ⟨⟨rfl, rfl, hdraw⟩, rfl⟩
  | some draw =>
    rw [awaitCompletion_done rfl rfl (exec_primetest_of_draw (s := issued .primetest [(.n, c)] s) hc hdraw) rfl]
    exact ⟨rfl, rfl⟩

end Sys2Proof.Machine
end

section
/-! PROOFS for spec/48_host_sequences.md: the search for an exponent (R203, R287). -/

namespace Sys2Proof.Machine

/-- The predecessor of phi is coprime to it, so a search that has passed over `e` has not reached the end. -/
theorem succ_lt_of_gcd_ne_one {e phi : Int} (he : e < phi) (hgcd : Int.gcd e phi ≠ 1) : e + 1 < phi := by
  by_contra hend
  apply hgcd
  obtain rfl : phi = e + 1 := by omega
  simp

/-- A value of the search is in `[0, phi)` and coprime to phi (spec R203). -/
def FoundCoprime (phi e : Int) (t : State) : Prop :=
  0 ≤ e ∧ e < phi ∧ Int.gcd e phi = 1 ∧ t.phase = .done ∧ t.r1 = 1

theorem coprimeLoop_ends {left : Nat} {phi e : Int} {s : State} (hs : s.phase = .idle ∨ s.phase = .done) (he : 0 ≤ e)
    (hphi : e < phi) (hleft : phi ≤ e + left) :
    (coprimeLoop left phi e s).Ends (FoundCoprime phi) (RefusedOperand (Set.Icc 0 phi)) (fun _ => False) := by
  induction left generalizing e s with
  | zero => omega
  | succ left ih =>
    have hoperands : ({e, phi} : Set Int) ⊆ Set.Icc 0 phi := by
      rintro v (rfl | rfl)
      · exact ⟨he, hphi.le⟩
      · exact ⟨by omega, le_rfl⟩
    refine ((blockCall_egcd_ends hs e phi).imp_abort fun _ _ h => h.mono hoperands).andThen fun _ t ⟨hdone, hr1⟩ => ?_
    have hgcd : t.r1 = Int.gcd e phi := hr1.trans (egcd_rem_of_nonneg he (by omega))
    split
    · rename_i hone
      exact ⟨he, hphi, by omega, hdone, hone⟩
    · rename_i hne
      exact ih (.inr hdone) (by omega) (succ_lt_of_gcd_ne_one hphi (by omega)) (by omega)

theorem coprimeSearch_ends {phi : Int} (hphi : 1 ≤ phi) (draw : Nat) {s : State} (hs : s.phase = .idle ∨ s.phase = .done) :
    (coprimeSearch phi draw s).Ends (FoundCoprime phi) (RefusedOperand (Set.Icc 0 phi)) (fun _ => False) := by
  have hlt : draw % phi.toNat < phi.toNat := Nat.mod_lt _ (by omega)
  exact coprimeLoop_ends hs (by omega) (by omega) (by omega)

/-- The search first waits for the command in flight, in whatever phase it is begun (spec R56, R284). -/
theorem coprimeSearch_eq_await_andThen {phi : Int} (hphi : 1 ≤ phi) (draw : Nat) (s : State) :
    coprimeSearch phi draw s = (awaitCompletion s).andThen fun _ t => coprimeSearch phi draw t := by
  obtain ⟨left, hleft⟩ : ∃ left, phi.toNat = left + 1 := ⟨phi.toNat - 1, by omega⟩
  simp only [coprimeSearch, hleft, coprimeLoop]
  rw [blockCall_eq_await_andThen, andThen_assoc]

theorem coprimeSearch_ends_in_every_phase {phi : Int} (hphi : 1 ≤ phi) (draw : Nat) (s : State) :
    (coprimeSearch phi draw s).Ends (FoundCoprime phi)
      (fun why t => RefusedOperand (Set.Icc 0 phi) why t ∨ FaultAbort s why t) (fun t => t = s ∧ Unanswered s) := by
  rw [coprimeSearch_eq_await_andThen hphi draw s]
  refine ((awaitCompletion_ends s).imp_abort fun _ _ => Or.inr).andThen fun _ t ht => ?_
  exact ((coprimeSearch_ends hphi draw ht).imp_abort fun _ _ => Or.inl).imp_pending fun _ => False.elim

end Sys2Proof.Machine

open Sys2Proof.Machine

/-- Settles O56: once the command in flight has completed, the search meets phi - 1 at the latest, which is coprime to phi. -/
theorem coprimeSearchFindsACoprime : Obligations.CoprimeSearchFindsACoprime := by
  refine fun phi draw s hphi => ⟨fun hfit hs => ?_, fun t hb hc ht => ?_, ?_⟩
  · exact (coprimeSearch_ends hphi draw hs).exists_value (not_refusedOperand_Icc hfit) fun _ h => h
  · rw [coprimeSearch_eq_await_andThen hphi draw s, awaitCompletion_busy hb hc ht,
      ← coprimeSearch_eq_await_andThen hphi draw t]
  · have hends := coprimeSearch_ends_in_every_phase hphi draw s
    generalize coprimeSearch phi draw s = r at hends ⊢
    cases r <;> exact hends
end

section
/-! PROOFS for spec/48_host_sequences.md: the search for a prime candidate (R201). -/

namespace Sys2Proof.Machine

/-- A value of a search of `retries` candidates from `c` is an accepted one (spec R201). -/
def AcceptedCandidate (retries : Nat) (c p : Int) (t : State) : Prop :=
  c ≤ p ∧ p < c + retries ∧ t.n = p ∧ t.verdict = true ∧ t.phase = .done

/-- Why a search of `retries` candidates from `c`, begun in `s`, has no end (log entry 15). -/
inductive SearchPending (retries : Nat) (c : Int) (s t : State) : Prop where
  | waits (hwait : PrimetestWaits t) (hlo : c ≤ t.n) (hhi : t.n < c + retries)
  | noRetries (hzero : retries = 0) (hsame : t = s)
  | lastRejected (hpos : 0 < retries) (hdone : t.phase = .done) (hverdict : t.verdict = false)
      (hlast : t.n = c + retries - 1)

theorem randomPrimeLoop_ends {retries : Nat} {c : Int} {s : State} (hs : s.phase = .idle ∨ s.phase = .done) (hc : 2 ≤ c) :
    (randomPrimeLoop retries c s).Ends (AcceptedCandidate retries c) (RefusedOperand (Set.Ico c (c + retries)))
      (SearchPending retries c s) := by
  induction retries generalizing c s with
  | zero => exact .noRetries rfl rfl
  | succ retries ih =>
    push_cast
    have hhead : ({c} : Set Int) ⊆ Set.Ico c (c + (retries + 1)) := by
      rintro v rfl
      exact ⟨le_rfl, by omega⟩
    have htail : Set.Ico (c + 1) (c + 1 + retries) ⊆ Set.Ico c (c + (retries + 1)) := by
      rintro v ⟨hlo, hhi⟩
      exact ⟨by omega, by omega⟩
    refine (((blockCall_primetest_ends hs hc).imp_abort fun _ _ h => h.mono hhead).imp_pending ?_).andThen ?_
    · rintro t ⟨hwait, hn⟩
      exact .waits hwait (by omega) (by omega)
    · rintro - t ⟨hdone, hn⟩
      split
      · rename_i hverdict
        exact ⟨le_rfl, by omega, hn, hverdict, hdone⟩
      · rename_i hverdict
        refine (ih (.inr hdone) (by omega)).mono ?_ (fun _ _ h => h.mono htail) fun u hu => ?_
        · rintro p u ⟨hlo, hhi, haccepted⟩
          exact ⟨by omega, by omega, haccepted⟩
        · cases hu with
          | waits hwait hlo hhi => exact .waits hwait (by omega) (by omega)
          | noRetries hzero hsame =>
            subst hsame
            exact .lastRejected (by omega) hdone (by simpa using hverdict) (by omega)
          | lastRejected hpos hdone hverdict hlast => exact .lastRejected (by omega) hdone hverdict (by omega)

theorem two_le_two_pow_pred {b : Nat} (hb : 2 ≤ b) : (2 : Int) ≤ 2 ^ (b - 1) := by
  calc (2 : Int) = 2 ^ 1 := rfl
    _ ≤ 2 ^ (b - 1) := pow_le_pow_right₀ (by decide) (by omega)

/-- The first candidate of RandomPrime (spec R201). -/
def firstCandidate (b draw : Nat) : Int := 2 ^ (b - 1) + (draw % 2 ^ (b - 1) : Nat)

theorem two_pow_pred_le_firstCandidate (b draw : Nat) : 2 ^ (b - 1) ≤ firstCandidate b draw := by
  rw [firstCandidate]
  omega

theorem randomPrime_ends (retries : Nat) {b : Nat} (hb : 2 ≤ b) (draw : Nat) {s : State}
    (hs : s.phase = .idle ∨ s.phase = .done) :
    (randomPrime retries b draw s).Ends (AcceptedCandidate retries (firstCandidate b draw))
      (RefusedOperand (Set.Ico (firstCandidate b draw) (firstCandidate b draw + retries)))
      (SearchPending retries (firstCandidate b draw) s) := by
  have hfirst : ((2 ^ (b - 1) + draw % 2 ^ (b - 1) : Nat) : Int) = firstCandidate b draw := by
    simp [firstCandidate]
  rw [randomPrime, hfirst]
  exact randomPrimeLoop_ends hs ((two_le_two_pow_pred hb).trans (two_pow_pred_le_firstCandidate b draw))

end Sys2Proof.Machine

open Sys2Proof.Machine

/-- Settles O57: each candidate is at least 2, so that PRIMETEST takes it, and the first is at least `2^(b-1)`. -/
theorem randomPrimeReturnsAnAcceptedCandidate : Obligations.RandomPrimeReturnsAnAcceptedCandidate := by
  rintro retries b draw s _ hb hs rfl
  have hmin := two_pow_pred_le_firstCandidate b draw
  have hends := randomPrime_ends retries hb draw hs
  unfold firstCandidate at hmin hends
  generalize randomPrime retries b draw s = r at hends ⊢
  cases r with
  | value p t =>
    obtain ⟨hlo, hhi, hn, hverdict, hdone⟩ := hends
    exact ⟨hlo, hhi, hmin.trans hlo, hn, hverdict, hdone⟩
  | abort why t => exact hends
  | pending t =>
    cases hends with
    | waits hwait hlo hhi =>
      obtain ⟨hbusy, hcmdw, hdraw⟩ := hwait
      exact .inl ⟨hbusy, hcmdw, hlo, hhi, hdraw⟩
    | noRetries hzero hsame => exact .inr (.inl ⟨hzero, hsame⟩)
    | lastRejected hpos hdone hverdict hlast => exact .inr (.inr ⟨hpos, hdone, hverdict, hlast⟩)
end

section
/-! PROOFS for spec/48_host_sequences.md: key generation and the key records (R202, R207). -/

namespace Sys2Proof.Machine

/-- A pair of exponents inverse modulo `phi`, both in `[0, phi)` (spec R202). -/
structure InverseExponents (phi e d : Int) : Prop where
  encNonneg : 0 ≤ e
  encLt : e < phi
  coprime : Int.gcd e phi = 1
  decNonneg : 0 ≤ d
  decLt : d < phi
  inverse : phi ∣ d * e - 1

/-- The part of KeyGen after the two prime searches: an exponent coprime to `phi`, then its inverse by MODINV. -/
theorem exponents_ends {phi : Int} (hphi : 1 ≤ phi) (draw : Nat) (n : Int) {s : State}
    (hs : s.phase = .idle ∨ s.phase = .done) :
    ((coprimeSearch phi draw s).andThen fun e t =>
      (blockCall .modinv [(.a, e), (.n, phi)] t).andThen fun _ u => .value (n, e, u.r0) u).Ends
      (fun key u => u.noinv = false ∧ key.1 = n ∧ InverseExponents phi key.2.1 key.2.2)
      (RefusedOperand Set.univ) (fun _ => False) := by
  refine ((coprimeSearch_ends hphi draw hs).imp_abort fun _ _ h => h.mono (Set.subset_univ _)).andThen ?_
  rintro e t ⟨hlo, hhi, hgcd, hdone, -⟩
  refine ((blockCall_modinv_ends (.inr hdone) hphi).imp_abort fun _ _ h => h.mono (Set.subset_univ _)).andThen ?_
  rintro - u ⟨hnoinv, hr0⟩
  have hrem : (egcd e phi).2 = 1 := by
    rw [egcd_rem_of_nonneg hlo (by omega), hgcd]
    rfl
  obtain ⟨hdlo, hdhi, hinv⟩ := modinvResult_isInverse hphi hrem
  rw [hrem] at hnoinv hr0
  rw [← hr0] at hdlo hdhi hinv
  exact ⟨hnoinv, rfl, hlo, hhi, hgcd, hdlo, hdhi, hinv⟩

/-- The two prime searches of KeyGen answered `p` and then `q` (spec R202). -/
structure PrimesFound (retries b drawP drawQ : Nat) (s : State) (p q : Int) (s1 s2 : State) : Prop where
  firstSearch : randomPrime retries b drawP s = .value p s1
  secondSearch : randomPrime retries b drawQ s1 = .value q s2
  firstLe : 2 ^ (b - 1) ≤ p
  secondLe : 2 ^ (b - 1) ≤ q

theorem randomPrime_ends_with_eq (retries : Nat) {b : Nat} (hb : 2 ≤ b) (draw : Nat) {s : State}
    (hs : s.phase = .idle ∨ s.phase = .done) :
    (randomPrime retries b draw s).Ends
      (fun p t => randomPrime retries b draw s = .value p t ∧ 2 ^ (b - 1) ≤ p ∧ t.phase = .done)
      (RefusedOperand Set.univ) (fun t => randomPrime retries b draw s = .pending t) := by
  refine (randomPrime_ends retries hb draw hs).with_eq.mono ?_ ?_ fun t ⟨heq, _⟩ => heq
  · rintro p t ⟨heq, hlo, -, -, -, hdone⟩
    exact ⟨heq, (two_pow_pred_le_firstCandidate b draw).trans hlo, hdone⟩
  · rintro why t ⟨-, href⟩
    exact href.mono (Set.subset_univ _)

theorem keyGen_ends (retries : Nat) {b : Nat} (hb : 2 ≤ b) (drawP drawQ drawE : Nat) {s : State}
    (hs : s.phase = .idle ∨ s.phase = .done) :
    (keyGen retries b drawP drawQ drawE s).Ends
      (fun key t => t.noinv = false ∧ ∃ p q s1 s2, PrimesFound retries b drawP drawQ s p q s1 s2 ∧ key.1 = p * q ∧
        InverseExponents ((p - 1) * (q - 1)) key.2.1 key.2.2)
      (RefusedOperand Set.univ)
      (fun t => randomPrime retries b drawP s = .pending t ∨
        ∃ p s1, randomPrime retries b drawP s = .value p s1 ∧ randomPrime retries b drawQ s1 = .pending t) := by
  have hmin := two_le_two_pow_pred hb
  refine ((randomPrime_ends_with_eq retries hb drawP hs).imp_pending fun _ => Or.inl).andThen ?_
  rintro p s1 ⟨hfirst, hp, hdone1⟩
  refine ((randomPrime_ends_with_eq retries hb drawQ (.inr hdone1)).imp_pending
    fun _ h => Or.inr ⟨p, s1, hfirst, h⟩).andThen ?_
  rintro q s2 ⟨hsecond, hq, hdone2⟩
  have hphi : 1 ≤ (p - 1) * (q - 1) := one_le_mul_of_one_le_of_one_le (by omega) (by omega)
  refine (exponents_ends hphi drawE (p * q) (.inr hdone2)).mono ?_ (fun _ _ h => h) fun _ => False.elim
  rintro key t ⟨hnoinv, hn, hexp⟩
  exact ⟨hnoinv, p, q, s1, s2, ⟨hfirst, hsecond, hp, hq⟩, hn, hexp⟩

theorem keyGenFiles_of_keyGen {retries b drawP drawQ drawE : Nat} {s t : State} {key : Int × Int × Int}
    (h : keyGen retries b drawP drawQ drawE s = .value key t) :
    keyGenFiles retries b drawP drawQ drawE s = .value (keyFilesOf key) t := by
  rw [keyGenFiles, h, andThen_value]

end Sys2Proof.Machine

open Sys2Proof.Machine

/-- Settles O58: the exponent is coprime to phi, so that MODINV answers its inverse, and the three integers are not negative. -/
theorem keyGenReturnsInverseExponents : Obligations.KeyGenReturnsInverseExponents := by
  intro retries b drawP drawQ drawE s hb hs
  have hmin := two_le_two_pow_pred hb
  have hends := keyGen_ends retries hb drawP drawQ drawE hs
  have hfiles := @keyGenFiles_of_keyGen retries b drawP drawQ drawE s
  generalize keyGen retries b drawP drawQ drawE s = r at hends hfiles ⊢
  cases r with
  | value key t =>
    obtain ⟨n, e, d⟩ := key
    obtain ⟨hnoinv, p, q, s1, s2, ⟨hfirst, hsecond, hp, hq⟩, hn, he, hephi, hgcd, hd, hdphi, hinv⟩ := hends
    have hn0 : 0 ≤ n := by
      rw [show n = p * q from hn]
      exact mul_nonneg (by omega) (by omega)
    refine ⟨hnoinv, ⟨p, q, s1, s2, hfirst, hsecond, hp, hq, hn, he, hephi, hgcd, hd, hdphi, hinv⟩, _, hfiles rfl,
      loadKeys_storeKeys _, ?_, ?_, ?_, ?_⟩
    · exact Int.toNat_of_nonneg hn0
    · exact Int.toNat_of_nonneg he
    · exact Int.toNat_of_nonneg hn0
    · exact Int.toNat_of_nonneg hd
  | abort why t =>
    obtain ⟨hphase, v, hwhy, hfit, -⟩ := hends
    exact ⟨hphase, v, hwhy, hfit⟩
  | pending t => exact hends
end

section
/-! PROOFS for spec/48_host_sequences.md: the encoding of a message (R204). -/

namespace Sys2Proof.Machine

/-- Below `2^128` the bytes of R0 are at most 16, and the padding keeps their value. -/
theorem cipherBlock_of_fits {s : State} (hpos : 0 < s.r0) (hlt : s.r0 < 2 ^ 128) :
    ∃ out, cipherBlock s = .value out s ∧ out.length = 16 ∧ (be2int out : Int) = s.r0 := by
  have hv : 0 < s.r0.toNat := by omega
  have hlen : (int2be s.r0.toNat).length ≤ 16 := length_int2be_le hv (by omega)
  refine ⟨padLeft (int2be s.r0.toNat) 16, ?_, length_padLeft hlen, ?_⟩
  · rw [cipherBlock, if_neg (by omega), if_neg (by omega)]
  · rw [be2int_padLeft, be2int_int2be hv, Int.toNat_of_nonneg hpos.le]

/-- A ciphertext block is 16 bytes, and the block of registers is as before. -/
theorem cipherBlock_ends (s : State) :
    (cipherBlock s).Ends (fun out t => t = s ∧ out.length = 16) (fun _ _ => True) (fun _ => False) := by
  unfold cipherBlock
  split_ifs with hpos hlen
  · trivial
  · trivial
  · exact ⟨rfl, length_padLeft (by omega)⟩

/-- One chunk for each 8 bytes begun. -/
theorem length_chunksLoop_eight {fuel : Nat} {bs : List Byte} (hfuel : bs.length ≤ fuel) :
    (chunksLoop 8 fuel bs).length = (bs.length + 7) / 8 := by
  induction fuel generalizing bs with
  | zero =>
    obtain rfl := List.eq_nil_of_length_eq_zero (Nat.le_zero.mp hfuel)
    rfl
  | succ fuel ih =>
    unfold chunksLoop
    split
    · subst bs
      rfl
    · have hpos : 0 < bs.length := List.length_pos_of_ne_nil (by assumption)
      have hrest : (bs.drop 8).length ≤ fuel := by
        rw [List.length_drop]
        omega
      rw [List.length_cons, ih hrest, List.length_drop]
      omega

theorem blockCall_rsaenc_ends {s : State} (hs : s.phase = .idle ∨ s.phase = .done) (a b n : Int) :
    (blockCall .rsaenc [(.a, a), (.b, b), (.n, n)] s).Ends (fun _ t => t.phase = .idle ∨ t.phase = .done)
      (fun _ _ => True) (fun _ => False) := by
  refine blockCall_ends (S := Set.univ) hs (by simp [hostWritable]) (by simp) (fun _ _ _ => trivial) ?_
  refine (awaitCompletion_ends _).mono (fun _ _ h => h) (fun _ _ _ => trivial) ?_
  rintro t ⟨-, hwait⟩
  exact not_unanswered_issued (by decide) _ _ hwait

theorem encodeChunks_ends (chunks : List (List Byte)) (e n : Int) {s : State} (hs : s.phase = .idle ∨ s.phase = .done) :
    (encodeChunks chunks e n s).Ends (fun out _ => out.length = 16 * chunks.length) (fun _ _ => True) (fun _ => False) := by
  induction chunks generalizing s with
  | nil => rfl
  | cons chunk rest ih =>
    refine (blockCall_rsaenc_ends hs (be2int chunk) e n).andThen fun _ t ht => ?_
    refine (cipherBlock_ends t).andThen ?_
    rintro block u ⟨rfl, hblock⟩
    refine (ih ht).andThen fun out v hout => ?_
    change (block ++ out).length = 16 * (rest.length + 1)
    rw [List.length_append, hblock, hout]
    omega

/-- A message of at least one chunk first waits for the command in flight, in whatever phase it is begun (spec R56, R284). -/
theorem encodeChunks_cons_eq_await_andThen (chunk : List Byte) (rest : List (List Byte)) (e n : Int) (s : State) :
    encodeChunks (chunk :: rest) e n s = (awaitCompletion s).andThen fun _ t => encodeChunks (chunk :: rest) e n t := by
  rw [encodeChunks, blockCall_eq_await_andThen, andThen_assoc]
  rfl

theorem encodeChunks_ends_in_every_phase (chunks : List (List Byte)) (e n : Int) (s : State) :
    (encodeChunks chunks e n s).Ends (fun out _ => out.length = 16 * chunks.length) (fun _ _ => True)
      (fun t => t = s ∧ Unanswered s) := by
  cases chunks with
  | nil => rfl
  | cons chunk rest =>
    rw [encodeChunks_cons_eq_await_andThen]
    refine ((awaitCompletion_ends s).imp_abort fun _ _ _ => trivial).andThen fun _ t ht => ?_
    exact (encodeChunks_ends (chunk :: rest) e n ht).imp_pending fun _ => False.elim

end Sys2Proof.Machine

open Sys2Proof.Machine

/-- Settles O59: RSAENC waits for no draw, so that only the command in flight at the start can hold a message up. -/
theorem ciphertextIsSixteenBytesAChunk : Obligations.CiphertextIsSixteenBytesAChunk := by
  refine ⟨fun s => cipherBlock_of_fits, fun text e n s => ?_⟩
  have hends := encodeChunks_ends_in_every_phase (chunksOf 8 (utf8Encode text)) e n s
  have hchunks : (chunksOf 8 (utf8Encode text)).length = ((utf8Encode text).length + 7) / 8 :=
    length_chunksLoop_eight le_rfl
  rw [hchunks] at hends
  unfold encodeMessage
  generalize encodeChunks (chunksOf 8 (utf8Encode text)) e n s = r at hends ⊢
  cases r with
  | value out t => exact hends
  | abort why t => trivial
  | pending t =>
    obtain ⟨hsame, hbusy, -, hdraw⟩ := hends
    exact ⟨hsame, hbusy, hdraw⟩
end

section
/-! PROOFS for spec/60_exceptions.md: which check fails first (R242, R243, R245, R246), the end of a command where none does
(R246), an illegal word (R241), and the state FAULT (R248). -/

namespace Sys2Proof.Machine

/-! ### The first failed check -/

theorem firstFault_of_modulus_lt_one {i : Instr} {s : State} (hi : i ≠ .egcd) (hn : s.n < 1) :
    firstFault i s = .errModulus := by
  cases i with
  | egcd => exact absurd rfl hi
  | mulmod | modexp | modinv | finv | fermat | mr | primetest | rsaenc | rsadec => exact if_pos hn

theorem firstFault_of_exponent_neg {i : Instr} {s : State} (hn : 1 ≤ s.n)
    (hi : i = .modexp ∨ i = .mr ∨ i = .rsaenc ∨ i = .rsadec) (hb : s.b < 0) : firstFault i s = .errExponent := by
  have hmodulus : ¬ s.n < 1 := by omega
  rcases hi with rfl | rfl | rfl | rfl <;> exact (if_neg hmodulus).trans (if_pos hb)

/-- FINV's exponent N - 2 is negative at N = 1 only, once CheckModulus has passed (spec R155, R243). -/
theorem firstFault_finv_of_exponent_neg {s : State} (hn : 1 ≤ s.n) (hexp : s.n - 2 < 0) :
    firstFault .finv s = .errExponent :=
  (if_neg (by omega)).trans (if_pos (by omega))

theorem firstFault_of_range {i : Instr} {s : State} (hn : 1 ≤ s.n) (hi : i = .rsaenc ∨ i = .rsadec) (hb : 0 ≤ s.b)
    (ha : s.a < 0 ∨ s.a ≥ s.n) : firstFault i s = .errRange := by
  have hmodulus : ¬ s.n < 1 := by omega
  have hexponent : ¬ s.b < 0 := by omega
  rcases hi with rfl | rfl <;> exact ((if_neg hmodulus).trans (if_neg hexponent)).trans (if_pos ha)

theorem firstFault_primetest_of_one {s : State} (hn : s.n = 1) : firstFault .primetest s = .errCandidate :=
  (if_neg (by omega)).trans (if_pos hn)

/-! ### The end of a command whose checks all pass -/

/-- No result of a command is CAUSE. -/
theorem results_cause {i : Instr} {s u : State} (h : results i s = some u) : u.cause = s.cause := by
  cases i with
  | primetest =>
    obtain ⟨draw, -, rfl⟩ := Option.map_eq_some_iff.mp h
    rfl
  | mulmod | modexp | egcd | modinv | finv | fermat | mr | rsaenc | rsadec => cases h; rfl

/-- Only PRIMETEST can lack its results, and only while its draw is not answered (spec R285). -/
theorem rngDraw_of_results_eq_none {i : Instr} {s : State} (h : results i s = none) :
    i = .primetest ∧ rngDraw (bitlen s.n.toNat) s.rng = none := by
  cases i with
  | primetest => exact ⟨rfl, Option.map_eq_none_iff.mp h⟩
  | mulmod | modexp | egcd | modinv | finv | fermat | mr | rsaenc | rsadec => cases h

/-- With all its checks passed a command ends in DONE, or is a PRIMETEST that waits; CAUSE stays (spec R78, R246, R285). -/
theorem completion_ends (i : Instr) (s : State) :
    ∃ t, completion i s = .next t ∧ t.cause = s.cause ∧
      (t.phase = .done ∨ (i = .primetest ∧ rngDraw (bitlen s.n.toNat) s.rng = none ∧ t = s)) := by
  unfold completion
  cases hu : results i s with
  | none =>
    obtain ⟨hi, hdraw⟩ := rngDraw_of_results_eq_none hu
    exact ⟨s, rfl, rfl, .inr ⟨hi, hdraw, rfl⟩⟩
  | some u =>
    have hcause : u.cause = s.cause := results_cause hu
    exact ⟨_, finish_eq u, hcause, .inl rfl⟩

/-! ### An illegal word -/

theorem complete_of_decode_error {s : State} (h : ∃ e, decode s.cmdw = .error e) :
    complete s = .next { s with cause := .errOpcode, phase := .fault } := by
  obtain ⟨e, he⟩ := h
  rw [complete, he]
  exact raise_eq .errOpcode s

/-! ### FAULT -/

/-- In FAULT a move of the HOST, other than a reset, reaches no further than the agents: an issue and a write of an operand are
ignored (spec R56, R58, R248). -/
theorem hostStep_of_fault {s t : State} (hf : s.phase = .fault) (hr : s.host.script.head? ≠ some .reset)
    (h : hostStep s = some (.next t)) : ∃ host rng, t = { s with host := host, rng := rng } := by
  obtain ⟨l, rest, hl, he | ⟨w, hi⟩ | ⟨i, v, r, -, -, hnf, -⟩ | ⟨w, -, rfl⟩ | ⟨rfl, -⟩⟩ := hostStep_next_cases h
  · exact ⟨t.host, s.rng, he⟩
  · have hphase : (withScript rest s).phase = .fault := hf
    rw [hostIssue_of_fault w hphase] at hi
    cases hi
    exact ⟨_, _, rfl⟩
  · exact absurd hf hnf
  · exact ⟨_, _, rfl⟩
  · exact absurd (congrArg List.head? hl) hr

/-- In FAULT, without a reset, a step is the HOST's move or a pause, so it reaches no further than the agents (spec R248, R286). -/
theorem step_of_fault {s t : State} (hf : s.phase = .fault) (hr : ¬ s.ResetNext) (h : step s = .next t) :
    ∃ host rng, t = { s with host := host, rng := rng } := by
  obtain ⟨hpin, hline⟩ := not_or.mp hr
  rw [step_of_ne_busy (Bool.eq_false_iff.mpr hpin) (by simp [hf])] at h
  cases ho : hostStep s with
  | none =>
    rw [agentMove_host_of_none ho] at h
    cases h
    exact ⟨s.host, s.rng, rfl⟩
  | some o =>
    rw [agentMove_host_of_some ho] at h
    exact hostStep_of_fault hf hline (h ▸ ho)

end Sys2Proof.Machine

open Sys2Proof.Machine

/-- Settles O8: what the agents hold is neither a register nor a flag. -/
theorem faultStaysUntilReset : Obligations.FaultStaysUntilReset := by
  intro s t hf hr h
  obtain ⟨host, rng, rfl⟩ := step_of_fault hf hr h
  exact ⟨hf, rfl, fun r => by cases r <;> rfl, rfl, rfl, rfl⟩

/-- Settles O36: a command is its first failed check, or its completion. -/
theorem firstFailedCheckIsTheFault : Obligations.FirstFailedCheckIsTheFault := by
  intro i s
  refine ⟨exec_of_firstFault, fun hf => ?_⟩
  rw [exec_of_no_firstFault hf]
  exact completion_ends i s

/-- Settles O6: the decoder refuses the word, and the turn has no part in the word that is decoded. -/
theorem illegalWordFaultsAtCompletion : Obligations.IllegalWordFaultsAtCompletion := by
  intro s hpin hb hillegal
  have hdecode := (illegalWordsAreRejected s.cmdw).mpr hillegal
  refine ⟨fun hnone => ?_, fun hmoves hturn => ?_⟩
  · rw [step_uncontested hpin hb hnone, complete_of_decode_error hdecode]
  · rw [← takeTurn_cmdw s] at hdecode
    rw [step_engineTurn hpin hb hmoves hturn, complete_of_decode_error hdecode]

/-- Settles O33: CheckModulus is the first check of every command but EGCD. -/
theorem modulusBelowOneFaults : Obligations.ModulusBelowOneFaults := fun _ _ hi hn =>
  exec_of_firstFault_eq (firstFault_of_modulus_lt_one hi hn) (by decide)

/-- Settles O34: behind CheckModulus, the check of the exponent is next. -/
theorem negativeExponentFaults : Obligations.NegativeExponentFaults := by
  rintro i s hn (⟨hi, hb⟩ | ⟨rfl, hexp⟩)
  · exact exec_of_firstFault_eq (firstFault_of_exponent_neg hn hi hb) (by decide)
  · exact exec_of_firstFault_eq (firstFault_finv_of_exponent_neg hn hexp) (by decide)

/-- Settles O35: the range is the last check of the RSA commands, and the candidate that of PRIMETEST. -/
theorem rangeAndCandidateFaults : Obligations.RangeAndCandidateFaults := by
  intro i s hn
  refine ⟨fun hi hb ha => ?_, fun hi hone => ?_⟩
  · exact exec_of_firstFault_eq (firstFault_of_range hn hi hb ha.symm) (by decide)
  · subst hi
    exact exec_of_firstFault_eq (firstFault_primetest_of_one hone) (by decide)
end

section
/-! PROOFS for spec/70_reset_and_hazards.md: the reset event (R280, R32), and a draw that the RNG does not answer (R285). -/

namespace Sys2Proof.Machine

/-! ### Reset -/

/-- The reset input wins over the HOST and the ENGINE (spec R280). -/
theorem step_of_resetPin {s : State} (hpin : s.resetPin = true) : step s = .next (resetEvent s) := by
  rw [step, advance, if_pos hpin]

theorem hostStep_reset {s : State} {rest : List ScriptLine} (h : s.host.script = .reset :: rest) :
    hostStep s = some (.next (resetEvent (withScript rest s))) := by
  rw [hostStep_of_script h]
  rfl

theorem toNat_statusWord_resetEvent (s : State) : (statusWord (resetEvent s)).toNat = 0 := by
  simp [toNat_statusWord, phaseBits_eq_phaseCode, causeCode, phaseCode]

/-- After a reset the table of spec R51 gives 0 at every index: STATUS, the seven registers, and the rest of the index space. -/
theorem portValue_resetEvent (i : Index) (s : State) : portValue i (resetEvent s) = 0 := by
  by_cases hstatus : i = indexStatus
  · rw [portValue, if_pos hstatus, toNat_statusWord_resetEvent, Int.ofNat_zero]
  by_cases hreg : ∃ r, i = indexOf r
  · obtain ⟨r, rfl⟩ := hreg
    rw [portValue_indexOf, resetEvent_read]
  · exact portValue_of_ne _ hstatus (not_exists.mp hreg)

/-- After a reset no read is held, as PHASE is IDLE (spec R55). -/
theorem hostRead_resetEvent (i : Index) (s : State) : hostRead i (resetEvent s) = some 0 := by
  have hidle : (resetEvent s).phase ≠ .busy := by simp
  rw [hostRead_of_not_held (.inl hidle), portValue_resetEvent]

/-! ### A draw without an answer -/

theorem rngDraw_eq_none {bits : Nat} {g : RngAgent} (hscripted : g.scripted = []) (hattached : g.attached = false) :
    rngDraw bits g = none := by
  rw [← Option.not_isSome_iff_eq_none, rngDraw_isSome_iff]
  simp [hscripted, hattached]

end Sys2Proof.Machine

open Sys2Proof Sys2Proof.Machine

/-- Settles O9: the reset input and the reset line both lead to the reset event, which keeps the agents only. -/
theorem resetClearsTheBlock : Obligations.ResetClearsTheBlock := by
  refine fun s => ⟨fun hpin => ?_, fun rest hline => ?_⟩
  · exact ⟨_, step_of_resetPin hpin, rfl, resetEvent_read s, rfl, rfl, rfl, (hostRead_resetEvent · s), rfl, rfl, rfl, rfl⟩
  · exact ⟨_, hostStep_reset hline, rfl, resetEvent_read _, rfl, rfl, rfl, (hostRead_resetEvent · _), rfl, rfl⟩

/-- Settles O29: without a draw PRIMETEST answers the state it began in, and the uncontested step in BUSY is that command. -/
theorem primetestWaitsForTheDraw : Obligations.PrimetestWaitsForTheDraw := by
  intro s hn hscripted hattached
  have hwait : exec .primetest s = .next s := exec_primetest_of_no_draw hn (rngDraw_eq_none hscripted hattached)
  refine ⟨hwait, fun hpin hb hword hnone => ?_⟩
  have hdecode : decode s.cmdw = .ok .primetest := by rw [hword, decode_encode]
  rw [step_uncontested hpin hb hnone, complete_of_decode_ok hdecode, hwait]
end
